-- ==== Sys2Proof/Word.lean ====
section
/-!
DEFINITION. The word of the command port: every command, operand, status and result word, every
callback reference, parameter, handle and sequence number is 32 bits (00_scope.md R6, 20_memory.md
R38, R40). A time of `TW` bits (`TW` at most 32) is held zero-extended in a word, the form in which
the port returns it (R40; log entry 4).
-/
namespace Sys2Proof

/-- One 32-bit word (R6: the word width is fixed at 32). -/
abbrev Word := BitVec 32

end Sys2Proof
end

