-- ==== Sys2Proof/Syntax.lean ====
section
/-!
DEFINITION. The syntax of TES-CMD version 1: the two issuers (00_scope.md R8), a transaction's request
and response (30_encoding.md R51), the status codes (R59), the instructions (one constructor per row of
the opcode map, R57), the reasons a command word is illegal (R61), the steps the environment can choose
(R8), and the lines of a program (R14, R65, R66).
-/
namespace Sys2Proof

/-- The two contexts that send transactions (R8). The TES cannot tell them apart (R101). -/
inductive Issuer where
  | normal
  | interrupt
deriving DecidableEq, Repr

/-- A request: the command word and three operand words (R51). -/
structure Request where
  cmd : Word
  arg0 : Word
  arg1 : Word
  arg2 : Word
deriving DecidableEq, Repr

/-- The status codes of R59, by name. Their numbers are `Status.code` of Machine/Flags.lean. -/
inductive Status where
  | ok
  | capacityExceeded
  | notFound
  | noneDue
  | badSlot
  | illegalCommand
deriving DecidableEq, Repr

/-- A response: the status word and five result words (R51, R58). -/
structure Response where
  status : Status
  res0 : Word
  res1 : Word
  res2 : Word
  res3 : Word
  res4 : Word
deriving DecidableEq, Repr

/-- The eleven instructions of R57 with the operands of R52 and R53. -/
inductive Instr where
  /-- SCHEDULE (R77): `ARG0` deadline (the whole word, cut to `TW` bits where it is used, R54),
  `ARG1` callback reference, `ARG2` parameter. -/
  | schedule (deadline callback param : Word)
  /-- CANCEL (R78): `ARG0` handle. -/
  | cancel (handle : Word)
  /-- CANCEL_ALL (R79): `ARG0` parameter. -/
  | cancelAll (param : Word)
  /-- MAINTAIN (R80). -/
  | maintain
  /-- SERVICE (R81). -/
  | service
  /-- RUN_NEXT (R82). -/
  | runNext
  /-- READ_TIME (R76). -/
  | readTime
  /-- READ_STATUS (R87). -/
  | readStatus
  /-- READ_SLOT (R88): the `SLOT` field of the command word. -/
  | readSlot (slot : BitVec 8)
  /-- COUNT_PARAM (R89): `ARG0` parameter. -/
  | countParam (param : Word)
  /-- WRITE_CTRL (R90): the `CTRLV` field of the command word, whose bits 7:1 must be 0 (R52). -/
  | writeCtrl (ctrlv : BitVec 8)
deriving DecidableEq, Repr

/-- Why a command word is illegal, in the order the checks of R61 run. -/
inductive DecodeError where
  /-- `RSVD` is not 0. -/
  | reserved
  /-- `OPC` is 0x00 or in 0x0C to 0xFF. -/
  | opcode
  /-- `SLOT` is not 0 on an opcode other than READ_SLOT. -/
  | slot
  /-- `CTRLV` is not 0 on an opcode other than WRITE_CTRL. -/
  | ctrl
  /-- `CTRLV[7:1]` is not 0 on WRITE_CTRL. -/
  | ctrlValue
deriving DecidableEq, Repr

/-- One step of one agent (R8): the tick source, the reset source, or an issuer's transaction. -/
inductive Input where
  | tick
  | reset
  | command (issuer : Issuer) (request : Request)
deriving DecidableEq, Repr

/-- One line of a program (R14): a command in the syntax of R65, a pseudo-command of R66, or an
environment step. `readSlot` and `writeCtrl` take the numbers as written, since an assembler refuses
those that cannot be encoded (R65). -/
inductive Line where
  | schedule (deadline callback param : Word)
  | cancel (handle : Word)
  | cancelAll (param : Word)
  | maintain
  | service
  | runNext
  | readTime
  | readStatus
  | readSlot (slot : Nat)
  | countParam (param : Word)
  | writeCtrl (e : Nat)
  | irqOn
  | irqOff
  | cancelTag (param : Word)
  | tick (n : Nat)
  | reset
  | comment
deriving DecidableEq, Repr

end Sys2Proof
end

