-- ==== Sys2Proof/WellFormed.lean ====
section
/-!
DEFINITION. Which instructions have an encoding (30_encoding.md R52, R57, R61). The one field whose
type is wider than its legal values is WRITE_CTRL's `CTRLV`: bits 7:1 must be 0. READ_SLOT's `SLOT` may
hold any 8-bit value (R57, mask 0xFFFF00FF); a slot that does not exist is the operand-stage status
BAD_SLOT (R60), not an ill-formed instruction.
-/
namespace Sys2Proof

/-- The instruction can be written as a legal command word. -/
def Instr.wf : Instr → Bool
  | .schedule _ _ _ => true
  | .cancel _ => true
  | .cancelAll _ => true
  | .maintain => true
  | .service => true
  | .runNext => true
  | .readTime => true
  | .readStatus => true
  | .readSlot _ => true
  | .countParam _ => true
  | .writeCtrl ctrlv => ctrlv.extractLsb' 1 7 == 0

/-- `Instr.wf` as a proposition, for statements. -/
abbrev Instr.WellFormed (i : Instr) : Prop := i.wf = true

end Sys2Proof
end

