-- ==== Sys2Proof/Decode.lean ====
section
/-!
DEFINITION. The command word's fields (30_encoding.md R52), the decoder (R61, R57, R53), the opcode map
as match and mask (R57), and the encoder written from the same tables (R52, R53, R57). A request is a
whole transaction of four words (R51, R64), so there is one format and no length to find.
-/
namespace Sys2Proof

/-- `OPC = CMD[7:0]` (R52). -/
def opcField (cmd : Word) : BitVec 8 := cmd.extractLsb' 0 8

/-- `SLOT = CMD[15:8]` (R52). -/
def slotField (cmd : Word) : BitVec 8 := cmd.extractLsb' 8 8

/-- `CTRLV = CMD[23:16]` (R52). -/
def ctrlField (cmd : Word) : BitVec 8 := cmd.extractLsb' 16 8

/-- `RSVD = CMD[31:24]` (R52). -/
def rsvdField (cmd : Word) : BitVec 8 := cmd.extractLsb' 24 8

/-- The last line of R61's `decode`: the rule of the opcode (R57), with the operands of R53. An operand
word that R53 marks "ignored" is not read (R56). -/
def dispatchOpcode (r : Request) : Except DecodeError Instr :=
  match (opcField r.cmd).toNat with
  | 0x01 => .ok (.schedule r.arg0 r.arg1 r.arg2)
  | 0x02 => .ok (.cancel r.arg0)
  | 0x03 => .ok (.cancelAll r.arg0)
  | 0x04 => .ok .maintain
  | 0x05 => .ok .service
  | 0x06 => .ok .runNext
  | 0x07 => .ok .readTime
  | 0x08 => .ok .readStatus
  | 0x09 => .ok (.readSlot (slotField r.cmd))
  | 0x0A => .ok (.countParam r.arg0)
  | 0x0B => .ok (.writeCtrl (ctrlField r.cmd))
  | _ => .error .opcode

/-- The decoder of R61, its checks in the order written there. -/
def decode (r : Request) : Except DecodeError Instr :=
  let opc := opcField r.cmd
  let ctrlv := ctrlField r.cmd
  if rsvdField r.cmd ≠ 0 then .error .reserved
  else if ¬ (1 ≤ opc.toNat ∧ opc.toNat ≤ 0x0B) then .error .opcode
  else if slotField r.cmd ≠ 0 ∧ opc ≠ 0x09 then .error .slot
  else if ctrlv ≠ 0 ∧ opc ≠ 0x0B then .error .ctrl
  else if opc = 0x0B ∧ ctrlv.extractLsb' 1 7 ≠ 0 then .error .ctrlValue
  else dispatchOpcode r

/-- One row of the opcode map as a match/mask pair over `CMD` (R57). -/
structure OpcodeRow where
  mnemonic : String
  pattern : Word
  mask : Word
deriving DecidableEq, Repr

/-- The row covers this command word. -/
def OpcodeRow.covers (row : OpcodeRow) (cmd : Word) : Bool := cmd &&& row.mask == row.pattern

/-- The eleven rows of R57 as written there: mask 0xFFFFFFFF, except READ_SLOT and WRITE_CTRL. The mask of
WRITE_CTRL leaves `SLOT` open, where R52 and R61 require 0; the decoder follows R61 (log entry 14). -/
def opcodeMap : List OpcodeRow :=
  [⟨"SCHEDULE", 0x00000001, 0xFFFFFFFF⟩, ⟨"CANCEL", 0x00000002, 0xFFFFFFFF⟩,
   ⟨"CANCEL_ALL", 0x00000003, 0xFFFFFFFF⟩, ⟨"MAINTAIN", 0x00000004, 0xFFFFFFFF⟩,
   ⟨"SERVICE", 0x00000005, 0xFFFFFFFF⟩, ⟨"RUN_NEXT", 0x00000006, 0xFFFFFFFF⟩,
   ⟨"READ_TIME", 0x00000007, 0xFFFFFFFF⟩, ⟨"READ_STATUS", 0x00000008, 0xFFFFFFFF⟩,
   ⟨"READ_SLOT", 0x00000009, 0xFFFF00FF⟩, ⟨"COUNT_PARAM", 0x0000000A, 0xFFFFFFFF⟩,
   ⟨"WRITE_CTRL", 0x0000000B, 0xFFFE00FF⟩]

/-- The mnemonic of R57 for each instruction. -/
def Instr.mnemonic : Instr → String
  | .schedule _ _ _ => "SCHEDULE"
  | .cancel _ => "CANCEL"
  | .cancelAll _ => "CANCEL_ALL"
  | .maintain => "MAINTAIN"
  | .service => "SERVICE"
  | .runNext => "RUN_NEXT"
  | .readTime => "READ_TIME"
  | .readStatus => "READ_STATUS"
  | .readSlot _ => "READ_SLOT"
  | .countParam _ => "COUNT_PARAM"
  | .writeCtrl _ => "WRITE_CTRL"

/-- How many of `ARG0`, `ARG1`, `ARG2` an instruction reads, from `ARG0` on (R53); the others are ignored
(R56). -/
def Instr.operandWords : Instr → Nat
  | .schedule _ _ _ => 3
  | .cancel _ => 1
  | .cancelAll _ => 1
  | .maintain => 0
  | .service => 0
  | .runNext => 0
  | .readTime => 0
  | .readStatus => 0
  | .readSlot _ => 0
  | .countParam _ => 1
  | .writeCtrl _ => 0

/-- The four words of an instruction (R52, R53, R57, R65): the command word of its row with its field in
place, its operands, and 0 for each operand word not written. -/
def encode : Instr → Request
  | .schedule d cb p => ⟨0x00000001, d, cb, p⟩
  | .cancel h => ⟨0x00000002, h, 0, 0⟩
  | .cancelAll p => ⟨0x00000003, p, 0, 0⟩
  | .maintain => ⟨0x00000004, 0, 0, 0⟩
  | .service => ⟨0x00000005, 0, 0, 0⟩
  | .runNext => ⟨0x00000006, 0, 0, 0⟩
  | .readTime => ⟨0x00000007, 0, 0, 0⟩
  | .readStatus => ⟨0x00000008, 0, 0, 0⟩
  | .readSlot slot => ⟨0x00000009 ||| (slot.setWidth 32 <<< 8), 0, 0, 0⟩
  | .countParam p => ⟨0x0000000A, p, 0, 0⟩
  | .writeCtrl ctrlv => ⟨0x0000000B ||| (ctrlv.setWidth 32 <<< 16), 0, 0, 0⟩

/-- The request whose first `nbits` bits are those of `w` and whose later bits are 0: bit 0 is bit 0 of
`CMD`, and `ARG0` to `ARG2` follow it (R51). -/
def Request.ofBits (nbits w : Nat) : Request :=
  let v := w % 2 ^ nbits
  ⟨BitVec.ofNat 32 v, BitVec.ofNat 32 (v / 2 ^ 32), BitVec.ofNat 32 (v / 2 ^ 64),
    BitVec.ofNat 32 (v / 2 ^ 96)⟩

/-- The instruction the decoder reads from bits numbered as spec/opcode_table.json numbers them. -/
def decodeTableWord (nbits w : Nat) : Option Instr :=
  match decode (Request.ofBits nbits w) with
  | .ok i => some i
  | .error _ => none

/-- The request a command line sends (R65), or `none` where an assembler refuses the line: a slot above
255 or a control value other than 0 or 1. Pseudo-commands expand as in R66. An environment line sends
no request. -/
def Line.request? : Line → Option Request
  | .schedule d cb p => some (encode (.schedule d cb p))
  | .cancel h => some (encode (.cancel h))
  | .cancelAll p => some (encode (.cancelAll p))
  | .maintain => some (encode .maintain)
  | .service => some (encode .service)
  | .runNext => some (encode .runNext)
  | .readTime => some (encode .readTime)
  | .readStatus => some (encode .readStatus)
  | .readSlot slot => if slot ≤ 255 then some (encode (.readSlot (BitVec.ofNat 8 slot))) else none
  | .countParam p => some (encode (.countParam p))
  | .writeCtrl e => if e ≤ 1 then some (encode (.writeCtrl (BitVec.ofNat 8 e))) else none
  | .irqOn => some ⟨0x0001000B, 0, 0, 0⟩
  | .irqOff => some ⟨0x0000000B, 0, 0, 0⟩
  | .cancelTag p => some (encode (.cancelAll p))
  | .tick _ => none
  | .reset => none
  | .comment => none

/-- The agent steps one line stands for, sent by `who` (R14): `TICK n` is `n` tick-source steps, `RESET`
one reset, a comment nothing, any other line one transaction. `none` where an assembler refuses it. -/
def Line.inputs? (who : Issuer) (line : Line) : Option (List Input) :=
  match line with
  | .tick n => some (List.replicate n .tick)
  | .reset => some [.reset]
  | .comment => some []
  | command => command.request?.map (fun r => [.command who r])

end Sys2Proof
end

