-- ==== Sys2Proof/Config.lean ====
section
/-!
DEFINITION. What one instance of the TES fixes (00_scope.md R6, R7), and the parameters that the spec
leaves OPEN and that no rule reads (R6 `TICK_PERIOD`, 20_memory.md R37 `TES_BASE`, R38
`BUS_BYTE_ORDER`).
-/
namespace Sys2Proof

/-- The parameters a model instance takes as an argument (R6). They never change (R7). -/
structure Params where
  /-- `TW`, the width in bits of absolute time. -/
  timeWidth : Nat
  /-- `RW`, the width in bits of the raw hardware counter. -/
  rawWidth : Nat
  /-- `NSLOT`, the number of event slots. -/
  nslot : Nat
deriving DecidableEq, Repr

/-- The legal ranges of R6: `TW` 2 to 32, `RW` 1 to `TW`-1, `NSLOT` 1 to 256. -/
abbrev Params.Legal (p : Params) : Prop :=
  (2 ≤ p.timeWidth ∧ p.timeWidth ≤ 32) ∧ (1 ≤ p.rawWidth ∧ p.rawWidth < p.timeWidth) ∧
    (1 ≤ p.nslot ∧ p.nslot ≤ 256)

/-- The defaults of R6: `TW` = 32, `RW` = 16, `NSLOT` = 8. -/
def Params.default : Params := ⟨32, 16, 8⟩

/-- The lane orders a byte-addressed bus wrapper could fix. R38 says only that the wrapper fixes its own;
that it is one of these two is the model's choice (DESIGN CHOICE, log entry 9), which no definition reads. -/
inductive ByteOrder where
  | leastSignificantFirst
  | mostSignificantFirst
deriving DecidableEq, Repr, Inhabited

/-- `TICK_PERIOD`, the duration of one tick: OPEN, read by no rule (R6, R120, D29). -/
opaque Config.tickPeriod : Nat

/-- `TES_BASE`, the base address of a memory-mapped wrapper: OPEN, read by no rule (R37, D26). -/
opaque Config.tesBase : Nat

/-- `BUS_BYTE_ORDER`, the lane order of a byte-addressed wrapper: OPEN, read by no rule (R38, D25). -/
opaque Config.busByteOrder : ByteOrder

end Sys2Proof
end

