-- ==== Sys2Proof/Machine/State.lean ====
section
/-!
DEFINITION. The state of one TES (10_state.md R18), beside it the model's own fields (the parameters of
00_scope.md R6, the environment's chosen steps of 20_memory.md R42, the response port of 30_encoding.md
R51), the reset state (R35, 70_reset_and_hazards.md R107), and the reasons a step can stop, of which the
TES has none (60_exceptions.md R96).
-/
namespace Sys2Proof.Machine

/-- One event slot `S[i]` (R21). The slot id is the index and is not stored. -/
structure Slot where
  /-- `VALID`: the slot holds an active event. -/
  valid : Bool
  /-- `DUE`: the interrupt has latched this event, which waits for RUN_NEXT. -/
  due : Bool
  /-- `DEADLINE`, a time of `TW` bits. -/
  deadline : Word
  /-- `CALLBACK`, an opaque reference. -/
  callback : Word
  /-- `PARAM`, the opaque tag. -/
  param : Word
  /-- `SEQ`, the schedule sequence number, which is the event's handle. -/
  seq : Word
deriving DecidableEq, Repr

/-- What a freed slot holds: zero in every field (R22, R23), which is also its reset value (R35). -/
def Slot.free : Slot := ⟨false, false, 0, 0, 0, 0⟩

/-- The TES and its ports as plain data. -/
@[ext]
structure State where
  /-- `TW` (R6): the model's own field, written by no step (R7; log entry 3). -/
  timeWidth : Nat
  /-- `RW` (R6): the model's own field, written by no step (R7; log entry 3). -/
  rawWidth : Nat
  /-- `NOW`, absolute time (R19). -/
  now : Word
  /-- `S[0]` to `S[NSLOT-1]` (R21); `NSLOT` is the length of this list (log entry 3). -/
  slots : List Slot
  /-- `SEQ_NEXT` (R24). -/
  seqNext : Word
  /-- `CMP_ARMED` (R26). -/
  cmpArmed : Bool
  /-- `CMP_VALUE` (R26). -/
  cmpValue : Word
  /-- `IRQ_PENDING` (R27). -/
  irqPending : Bool
  /-- `IRQ_EN`, the one field of `CTRL` (R28). -/
  irqEn : Bool
  /-- The steps the environment has chosen, oldest first (R42): the model's own field (log entry 1). -/
  inputs : List Input
  /-- The issuer whose transaction the last step served, if it served one (R51): the model's own field
  (log entry 5). -/
  serving : Option Issuer
  /-- The response the last step returned, if it returned one (R51): the model's own field
  (log entry 5). -/
  response : Option Response
deriving DecidableEq, Repr

/-- The TES never stops with a fault: every failure is a status of the response (R96; 93 section 2, "No
behaviour of the TES is `stuck` or `fault`"). So no constructor. -/
inductive Fault where
deriving DecidableEq, Repr

/-- Why a step has no meaning. -/
inductive Refusal where
  /-- An instruction that has no meaning yet. Raised by nothing: every arm of `exec` has its meaning.
  Safe, since a step that refuses proves no next state. -/
  | notModelled (mnemonic : String)
deriving DecidableEq, Repr

/-- The state after reset of an instance with these parameters (R35): every element 0, no event, the
timer disarmed, the interrupt neither pending nor enabled. Nothing is offered to it yet and no response
has been returned. -/
def State.resetWith (p : Params) : State where
  timeWidth := p.timeWidth
  rawWidth := p.rawWidth
  now := 0
  slots := List.replicate p.nslot Slot.free
  seqNext := 0
  cmpArmed := false
  cmpValue := 0
  irqPending := false
  irqEn := false
  inputs := []
  serving := none
  response := none

/-- The machine right after reset, at the spec's default parameters (R6, R35). -/
def State.reset : State := State.resetWith Params.default

end Sys2Proof.Machine
end

