-- ==== Sys2Proof/Machine/Operands.lean ====
section
/-!
DEFINITION. Widths and operand forms: cutting a value to its low bits (00_scope.md R10, 30_encoding.md
R54), widening a short value to a result word (R10, R40, 20_memory.md R40), and counts and indices as
result words (R58, R75).
-/
namespace Sys2Proof.Machine

/-- `trunc_W(v)`, `v mod 2^W` (R10), zero-extended to a word. -/
def trunc (width : Nat) (v : Word) : Word := BitVec.ofNat 32 (v.toNat % 2 ^ width)

/-- SCHEDULE's deadline operand: `ARG0[TW-1:0]`, the bits above ignored (R54). -/
def deadlineOperand (timeWidth : Nat) (arg0 : Word) : Word := trunc timeWidth arg0

/-- A count or a slot index as an unsigned result word (R40, R58). -/
def countWord (n : Nat) : Word := BitVec.ofNat 32 n

/-- One bit as a result word. -/
def bitWord (b : Bool) : Word := (BitVec.ofBool b).setWidth 32

end Sys2Proof.Machine
end

