-- ==== Sys2Proof/Machine/Compare.lean ====
section
/-!
DEFINITION. The wraparound-safe comparison of times and of sequence numbers: the signed difference
(00_scope.md R10), `BEFORE` (40_time_compare.md R67), the due test (R69) and the event order (R70).
Times are never compared by raw magnitude (R67).
-/
namespace Sys2Proof.Machine

/-- `sdiff_W(a, b)` of R10: `d = (a - b) mod 2^W`, read as two's complement (G1; log entry 12). -/
def sdiff (width : Nat) (a b : Word) : Int :=
  let d := (a - b).toNat % 2 ^ width
  if d < 2 ^ (width - 1) then (d : Int) else (d : Int) - (2 ^ width : Nat)

/-- `BEFORE(a, b)` (R67). -/
def before (timeWidth : Nat) (a b : Word) : Bool := decide (sdiff timeWidth a b < 0)

/-- `IS_DUE(d)` at the time `now` (R69): `not BEFORE(NOW, d)`. -/
def isDue (timeWidth : Nat) (now d : Word) : Bool := !before timeWidth now d

/-- `ORDER_LT` (R70) on the contents of two slots: the earlier deadline first, and among equal deadlines
the smaller `SEQ` in wraparound order. -/
def orderLt (timeWidth : Nat) (x y : Slot) : Bool :=
  before timeWidth x.deadline y.deadline ||
    (x.deadline == y.deadline && decide (sdiff 32 x.seq y.seq < 0))

end Sys2Proof.Machine
end

