-- ==== Sys2Proof/Machine/Flags.lean ====
section
/-!
DEFINITION. The status codes (30_encoding.md R59) and the two flag words: READ_STATUS `RES0`
(43_observe_control.md R87) and READ_SLOT `RES0` (R88). The TES has no condition codes (10_state.md R30).
-/
namespace Sys2Proof.Machine

/-- The numbers of R59. -/
def statusCode : Status → Word
  | .ok => 0
  | .capacityExceeded => 1
  | .notFound => 2
  | .noneDue => 3
  | .badSlot => 4
  | .illegalCommand => 5

/-- The six words of a response as they cross the port (R51). -/
def responseWords (r : Response) : List Word :=
  [statusCode r.status, r.res0, r.res1, r.res2, r.res3, r.res4]

/-- READ_STATUS `RES0`: bit 3 the IRQ output, bit 2 `CMP_ARMED`, bit 1 `IRQ_PENDING`, bit 0 `IRQ_EN`
(R87, concatenated with the first named uppermost, R10). -/
def statusFlags (irq armed pending enabled : Bool) : Word :=
  (BitVec.ofBool irq ++ BitVec.ofBool armed ++ BitVec.ofBool pending ++
    BitVec.ofBool enabled).setWidth 32

/-- READ_SLOT `RES0`: bit 1 `DUE`, bit 0 `VALID` (R88). -/
def slotFlags (due valid : Bool) : Word := (BitVec.ofBool due ++ BitVec.ofBool valid).setWidth 32

end Sys2Proof.Machine
end

