-- ==== Sys2Proof/Machine/Ops.lean ====
section
/-!
DEFINITION. The shared operations over the state that the commands and the agents are written from:
reading a slot and the slot sets (00_scope.md R11, R13), the views (10_state.md R20, R29), freeing a slot
(R23), SELECT and ARM (40_time_compare.md R71, R73), raising the interrupt (60_exceptions.md R93), and the
two ways a command ends (00_scope.md R12). The TES takes no trap and returns from none (R96, R98, R99):
`raise` is the whole of what a failing command does.
-/
namespace Sys2Proof.Machine

/-- What a step answers. -/
abbrev Answer := Host.Outcome State Fault Refusal

/-- `NSLOT` (R6). -/
def State.nslot (s : State) : Nat := s.slots.length

/-- The parameters of this instance (R6). -/
def State.params (s : State) : Params := ⟨s.timeWidth, s.rawWidth, s.nslot⟩

/-- `S[i]` (R11). No rule reads an index outside `0..NSLOT-1`; there this reads a free slot
(log entry 11). -/
def State.slot (s : State) (i : Nat) : Slot := s.slots.getD i Slot.free

/-- The slot indices with a property, in ascending order (R13, R11). -/
def State.indices (s : State) (p : Slot → Bool) : List Nat :=
  (List.range s.nslot).filter (fun i => p (s.slot i))

/-- `LIVE` (R13). -/
def State.live (s : State) : List Nat := s.indices (fun x => x.valid)

/-- `PEND` (R13). -/
def State.pend (s : State) : List Nat := s.indices (fun x => x.valid && !x.due)

/-- `READY` (R13). -/
def State.ready (s : State) : List Nat := s.indices (fun x => x.valid && x.due)

/-- `FREE` (R13). -/
def State.freeSlots (s : State) : List Nat := s.indices (fun x => !x.valid)

/-- `RAW = NOW[RW-1:0]` (R20), zero-extended. -/
def State.raw (s : State) : Word := trunc s.rawWidth s.now

/-- The IRQ output (R29). -/
def State.irq (s : State) : Bool := s.irqPending && s.irqEn

/-- `IS_DUE(d)` at the current time (R69). -/
def State.isDue (s : State) (d : Word) : Bool := Machine.isDue s.timeWidth s.now d

/-- `ORDER_LT(i, j)` (R70). -/
def State.orderLt (s : State) (i j : Nat) : Bool :=
  Machine.orderLt s.timeWidth (s.slot i) (s.slot j)

/-- One turn of SELECT's loop (R71): `i` replaces the best so far when there is none or `i` comes before
it. -/
def State.better (s : State) (best : Option Nat) (i : Nat) : Option Nat :=
  match best with
  | none => some i
  | some b => if s.orderLt i b then some i else some b

/-- `SELECT(X)` (R71), the set given as its indices in ascending order: a linear scan. -/
def State.select (s : State) (xs : List Nat) : Option Nat := xs.foldl s.better none

/-- `S[i] <- x`. -/
def State.setSlot (s : State) (i : Nat) (x : Slot) : State := { s with slots := s.slots.set i x }

/-- `free(i)` (R23). -/
def State.freeSlot (s : State) (i : Nat) : State := s.setSlot i Slot.free

/-- Latch the timer interrupt request (R27, R93). -/
def State.raiseIrq (s : State) : State := { s with irqPending := true }

/-- `ARM()` (R73): program the compare-match timer for the nearest pending deadline or disarm it, and
raise the interrupt at once if that deadline is already due ("run ASAP"). -/
def State.arm (s : State) : State :=
  match s.select s.pend with
  | none => { s with cmpArmed := false }
  | some b =>
    let armed := { s with cmpArmed := true, cmpValue := (s.slot b).deadline }
    if s.isDue (s.slot b).deadline then armed.raiseIrq else armed

/-- `respond(OK, r0, r1, r2, r3, r4)` (R12): the command ends and its writes stand. -/
def respond (r0 r1 r2 r3 r4 : Word) (s : State) : Answer :=
  .next { s with response := some ⟨.ok, r0, r1, r2, r3, r4⟩ }

/-- `raise Status(code)` (R12): given the state the command started from, so that no write of it stands,
with five zero results. -/
def raise (code : Status) (s : State) : Answer :=
  .next { s with response := some ⟨code, 0, 0, 0, 0, 0⟩ }

end Sys2Proof.Machine
end

