-- ==== Sys2Proof/Machine/Agents.lean ====
section
/-!
DEFINITION. The agents of 00_scope.md R8: which one acts next (20_memory.md R42, R45), the tick with its
compare match (60_exceptions.md R91, R92), reset (70_reset_and_hazards.md R107), and the answer to an
illegal command word (30_encoding.md R61).
-/
namespace Sys2Proof.Machine

/-- The issuer of a transaction; ticks and resets have none. -/
def inputIssuer : Input → Option Issuer
  | .tick => none
  | .reset => none
  | .command who _ => some who

/-- The next agent's step and the state it starts from: the oldest chosen step, taken off the list, with
the response port empty until this step returns a response (R51). Where no step is chosen the tick
source acts, which nothing gates or stops (R91, R106; log entry 2). -/
def fetch (s : State) : Input × State :=
  match s.inputs with
  | [] => (.tick, { s with serving := none, response := none })
  | x :: rest => (x, { s with inputs := rest, serving := inputIssuer x, response := none })

/-- One tick (R91) with its compare match (R92): equality on all `TW` bits of the incremented time. -/
def tick (s : State) : State :=
  let t := { s with now := trunc s.timeWidth (s.now + 1) }
  if t.cmpArmed && t.now == t.cmpValue then t.raiseIrq else t

/-- Reset (R107): every element of R18 to its value in R35, all at once. The parameters stay (R7), and
so do the steps the environment has still to take (log entry 17). -/
def applyReset (s : State) : State :=
  { State.resetWith s.params with
    inputs := s.inputs, serving := s.serving, response := s.response }

/-- An illegal command (R61): `raise Status(ILLEGAL_COMMAND)`, whatever makes the word illegal. -/
def illegalCommand (_reason : DecodeError) (s : State) : Answer := raise .illegalCommand s

/-- The state that offers a request as the very next step, sent by the normal context (log entry 8). -/
def offer (s : State) (r : Request) : State := { s with inputs := .command .normal r :: s.inputs }

end Sys2Proof.Machine
end

