-- ==== Sys2Proof/Machine/Schedule.lean ====
section
/-!
DEFINITION. Scheduling and cancellation: SCHEDULE, CANCEL, CANCEL_ALL, MAINTAIN
(41_schedule_cancel.md R77 to R80).
-/
namespace Sys2Proof.Machine

/-- The event a SCHEDULE adds (R77): live, not latched, with the next sequence number. -/
def newEvent (s : State) (arg0 cb p : Word) : Slot :=
  ⟨true, false, deadlineOperand s.timeWidth arg0, cb, p, s.seqNext⟩

/-- SCHEDULE's writes before ARM (R77): slot `f` filled, `SEQ_NEXT` counted up modulo 2^32. -/
def addEvent (s : State) (f : Nat) (arg0 cb p : Word) : State :=
  { s.setSlot f (newEvent s arg0 cb p) with seqNext := s.seqNext + 1 }

/-- SCHEDULE (R77). -/
def execSchedule (deadline callback param : Word) (s : State) : Answer :=
  match s.freeSlots.head? with
  | none => raise .capacityExceeded s
  | some f => respond s.seqNext 0 0 0 0 (addEvent s f deadline callback param).arm

/-- The lowest live slot with this sequence number (R78). -/
def holder (s : State) (handle : Word) : Option Nat :=
  s.live.find? (fun i => (s.slot i).seq == handle)

/-- CANCEL (R78). -/
def execCancel (handle : Word) (s : State) : Answer :=
  match holder s handle with
  | none => raise .notFound s
  | some k => respond 0 0 0 0 0 (s.freeSlot k).arm

/-- The slot holds a live event with this parameter (R79, R89): whole-word equality. -/
def tagged (param : Word) (x : Slot) : Bool := x.valid && x.param == param

/-- CANCEL_ALL's loop (R79): every tagged slot freed, the others kept. -/
def freeTagged (s : State) (param : Word) : State :=
  { s with slots := s.slots.map (fun x => if tagged param x then Slot.free else x) }

/-- CANCEL_ALL (R79): the count is of the slots its loop frees. -/
def execCancelAll (param : Word) (s : State) : Answer :=
  respond (countWord (s.indices (tagged param)).length) 0 0 0 0 (freeTagged s param).arm

/-- MAINTAIN (R80). -/
def execMaintain (s : State) : Answer := respond 0 0 0 0 0 s.arm

end Sys2Proof.Machine
end

