-- ==== Sys2Proof/Machine/Observe.lean ====
section
/-!
DEFINITION. Observation and control: READ_STATUS, READ_SLOT, COUNT_PARAM, WRITE_CTRL
(43_observe_control.md R87 to R90).
-/
namespace Sys2Proof.Machine

/-- READ_STATUS (R87). -/
def execReadStatus (s : State) : Answer :=
  respond (statusFlags s.irq s.cmpArmed s.irqPending s.irqEn) s.cmpValue
    (countWord s.live.length) (countWord s.ready.length) s.seqNext s

/-- READ_SLOT (R88): BAD_SLOT at the operand stage (R60). -/
def execReadSlot (slot : BitVec 8) (s : State) : Answer :=
  if slot.toNat < s.nslot then
    let x := s.slot slot.toNat
    respond (slotFlags x.due x.valid) x.deadline x.callback x.param x.seq s
  else raise .badSlot s

/-- COUNT_PARAM (R89): live events, latched or not; a free slot is not counted. -/
def execCountParam (param : Word) (s : State) : Answer :=
  respond (countWord (s.indices (tagged param)).length) 0 0 0 0 s

/-- WRITE_CTRL (R90): `IRQ_EN` is `CMD[16]`, bit 0 of `CTRLV`. -/
def execWriteCtrl (ctrlv : BitVec 8) (s : State) : Answer :=
  respond 0 0 0 0 0 { s with irqEn := ctrlv.getLsbD 0 }

end Sys2Proof.Machine
end

