-- ==== Sys2Proof/Machine/Service.lean ====
section
/-!
DEFINITION. Due-event latching and deferred dispatch: SERVICE and RUN_NEXT (42_dispatch.md R81, R82).
The TES runs no callback: RUN_NEXT returns its reference (R83).
-/
namespace Sys2Proof.Machine

/-- The slot holds a pending event whose deadline has been reached (R81). -/
def newlyDue (s : State) (x : Slot) : Bool := x.valid && !x.due && s.isDue x.deadline

/-- SERVICE's writes before ARM (R81): every newly due event latched, the interrupt acknowledged. -/
def latchDue (s : State) : State :=
  { s with
    slots := s.slots.map (fun x => if newlyDue s x then { x with due := true } else x)
    irqPending := false }

/-- SERVICE (R81): the count is of the slots its loop latches. -/
def execService (s : State) : Answer :=
  respond (countWord (s.indices (newlyDue s)).length) 0 0 0 0 (latchDue s).arm

/-- RUN_NEXT (R82): the first latched event in event order, its slot freed. -/
def execRunNext (s : State) : Answer :=
  match s.select s.ready with
  | none => raise .noneDue s
  | some b =>
    let x := s.slot b
    respond x.callback x.param x.seq x.deadline (countWord b) (s.freeSlot b).arm

end Sys2Proof.Machine
end

