-- ==== Sys2Proof/Machine/TimeBase.lean ====
section
/-!
DEFINITION. The time family: READ_TIME (40_time_compare.md R76).
-/
namespace Sys2Proof.Machine

/-- READ_TIME (R76): absolute time and the raw counter, read at one instant. -/
def execReadTime (s : State) : Answer := respond s.now s.raw 0 0 0 s

end Sys2Proof.Machine
end

