-- ==== Sys2Proof/Machine/Dispatch.lean ====
section
/-!
DEFINITION. The meaning of each instruction, one arm each (30_encoding.md R57).
-/
namespace Sys2Proof.Machine

def exec (i : Instr) (s : State) : Host.Outcome State Fault Refusal :=
  match i with
  | .schedule deadline callback param => Sys2Proof.Machine.execSchedule deadline callback param s
  | .cancel handle => Sys2Proof.Machine.execCancel handle s
  | .cancelAll param => Sys2Proof.Machine.execCancelAll param s
  | .maintain => Sys2Proof.Machine.execMaintain s
  | .service => Sys2Proof.Machine.execService s
  | .runNext => Sys2Proof.Machine.execRunNext s
  | .readTime => Sys2Proof.Machine.execReadTime s
  | .readStatus => Sys2Proof.Machine.execReadStatus s
  | .readSlot slot => Sys2Proof.Machine.execReadSlot slot s
  | .countParam param => Sys2Proof.Machine.execCountParam param s
  | .writeCtrl ctrlv => Sys2Proof.Machine.execWriteCtrl ctrlv s

end Sys2Proof.Machine
end

