-- ==== Sys2Proof/Machine/Step.lean ====
section
/-!
DEFINITION. One step of the machine: one step of one agent (00_scope.md R8), a whole transaction if it is
an issuer's (20_memory.md R41).
-/
namespace Sys2Proof.Machine

/-- One step: the next agent's. A transaction is decoded (30_encoding.md R61) and executed, or answered
ILLEGAL_COMMAND. -/
def step (s : State) : Host.Outcome State Fault Refusal :=
  match fetch s with
  | (.tick, t) => .next (tick t)
  | (.reset, t) => .next (applyReset t)
  | (.command _ request, t) =>
    match decode request with
    | .ok i => exec i t
    | .error reason => illegalCommand reason t

/-- The state whose very next step is the transaction with these bits, numbered as
spec/opcode_table.json numbers them (log entry 7). -/
def State.withFetchWord (s : State) (nbits w : Nat) : State := offer s (Request.ofBits nbits w)

end Sys2Proof.Machine
end

