-- ==== Sys2Proof/Machine/Assembler.lean ====
section
/-!
DEFINITION. The written form of a program (00_scope.md R14, 30_encoding.md R65, R66): a line of text is a
mnemonic and its operands separated by commas, an environment step, or a comment; operands are decimal
or `0x` hexadecimal numbers. It stands beside the machine: the TES itself reads no text (R9).
-/
namespace Sys2Proof.Machine

/-- The value of one hexadecimal digit. -/
def digitValue (c : Char) : Option Nat :=
  let n := c.toNat
  if 48 ≤ n ∧ n ≤ 57 then some (n - 48)
  else if 97 ≤ n ∧ n ≤ 102 then some (n - 87)
  else if 65 ≤ n ∧ n ≤ 70 then some (n - 55)
  else none

/-- The digits of a number in a base, from the uppermost, continuing `acc`. -/
def readDigits (base : Nat) : Nat → List Char → Option Nat
  | acc, [] => some acc
  | acc, c :: rest =>
    match digitValue c with
    | none => none
    | some d => if d < base then readDigits base (acc * base + d) rest else none

/-- A number as written (R65): `0x` hexadecimal, else decimal. -/
def readNumber : List Char → Option Nat
  | [] => none
  | '0' :: 'x' :: c :: rest => readDigits 16 0 (c :: rest)
  | c :: rest => readDigits 10 0 (c :: rest)

/-- The pieces of a text between occurrences of a separator. -/
def pieces (sep : Char) : List Char → List (List Char)
  | [] => [[]]
  | c :: rest =>
    if c = sep then [] :: pieces sep rest
    else
      match pieces sep rest with
      | [] => [[c]]
      | p :: ps => (c :: p) :: ps

/-- A text without the blanks around it. Only the space character is a blank (DESIGN CHOICE, log
entry 13). -/
def trimBlanks (text : List Char) : List Char :=
  ((text.dropWhile (· = ' ')).reverse.dropWhile (· = ' ')).reverse

/-- The operands of a line, separated by commas (R65). -/
def readOperands : List (List Char) → Option (List Nat)
  | [] => some []
  | p :: ps =>
    match readNumber (trimBlanks p), readOperands ps with
    | some n, some ns => some (n :: ns)
    | _, _ => none

/-- An operand that travels in a whole operand word (R52); one that does not fit is refused
(log entry 13). -/
def operandWord (n : Nat) : Option Word := if n < 2 ^ 32 then some (BitVec.ofNat 32 n) else none

/-- The line with this mnemonic and these operands (R14, R65, R66). -/
def lineOf (mnemonic : String) (operands : List Nat) : Option Line :=
  match mnemonic, operands with
  | "SCHEDULE", [d, cb, p] =>
    match operandWord d, operandWord cb, operandWord p with
    | some d, some cb, some p => some (.schedule d cb p)
    | _, _, _ => none
  | "CANCEL", [h] => (operandWord h).map .cancel
  | "CANCEL_ALL", [p] => (operandWord p).map .cancelAll
  | "MAINTAIN", [] => some .maintain
  | "SERVICE", [] => some .service
  | "RUN_NEXT", [] => some .runNext
  | "READ_TIME", [] => some .readTime
  | "READ_STATUS", [] => some .readStatus
  | "READ_SLOT", [k] => some (.readSlot k)
  | "COUNT_PARAM", [p] => (operandWord p).map .countParam
  | "WRITE_CTRL", [e] => some (.writeCtrl e)
  | "IRQ_ON", [] => some .irqOn
  | "IRQ_OFF", [] => some .irqOff
  | "CANCEL_TAG", [p] => (operandWord p).map .cancelTag
  | "TICK", [n] => some (.tick n)
  | "RESET", [] => some .reset
  | _, _ => none

/-- One line of text (R14, R65): what follows a semicolon is a comment. A line that is empty or all blanks,
of which R14 says nothing, is taken as a comment, which stands for no step. The spec does not say what a
blank is: only the space character is one, so that a line with a tab outside its comment is refused, and
blanks before the mnemonic and at the end of the line are ignored (DESIGN CHOICE, log entry 13). -/
def parseLine (text : String) : Option Line :=
  let body := trimBlanks (text.toList.takeWhile (· ≠ ';'))
  let word := body.takeWhile (· ≠ ' ')
  let rest := trimBlanks (body.dropWhile (· ≠ ' '))
  if body = [] then some .comment
  else
    match readOperands (if rest = [] then [] else pieces ',' rest) with
    | none => none
    | some operands => lineOf (String.ofList word) operands

/-- The name of a status (R59). -/
def statusName : Status → String
  | .ok => "OK"
  | .capacityExceeded => "CAPACITY_EXCEEDED"
  | .notFound => "NOT_FOUND"
  | .noneDue => "NONE_DUE"
  | .badSlot => "BAD_SLOT"
  | .illegalCommand => "ILLEGAL_COMMAND"

/-- One result word in a response's written form: only a nonzero one is listed, by name (R65). The number
is written in decimal (log entry 13). -/
def resultText (name : String) (v : Word) : String :=
  if v = 0 then "" else " " ++ name ++ "=" ++ toString v.toNat

/-- A response as the comment written after its command (R65). -/
def responseComment (r : Response) : String :=
  "; -> " ++ statusName r.status ++ resultText "RES0" r.res0 ++ resultText "RES1" r.res1 ++
    resultText "RES2" r.res2 ++ resultText "RES3" r.res3 ++ resultText "RES4" r.res4

/-- The agent steps of a program given as lines of text (R14). -/
def assembleText (who : Issuer) : List String → Option (List Input)
  | [] => some []
  | text :: rest =>
    match parseLine text, assembleText who rest with
    | some line, some later => (line.inputs? who).map (· ++ later)
    | _, _ => none

end Sys2Proof.Machine
end

