-- ==== Sys2Proof/Safety.lean ====
section
/-!
DEFINITION. What claims about a run are written in: the invariants of 10_state.md R22, R33 and R34, the
widths of R18, the horizon condition of 70_reset_and_hazards.md R112, the base conditions of
40_time_compare.md R72, what ARM leaves behind (R73), which elements two states share (R18, R31), and the
issuers' duties of 60_exceptions.md R95, which are premises of claims and no part of the step.
-/
namespace Sys2Proof

/-- The four read-only commands of R48. -/
def Instr.readOnly : Instr → Bool
  | .schedule _ _ _ => false
  | .cancel _ => false
  | .cancelAll _ => false
  | .maintain => false
  | .service => false
  | .runNext => false
  | .readTime => true
  | .readStatus => true
  | .readSlot _ => true
  | .countParam _ => true
  | .writeCtrl _ => false

/-- The event-set commands of R48. -/
def Instr.eventSet : Instr → Bool
  | .schedule _ _ _ => true
  | .cancel _ => true
  | .cancelAll _ => true
  | .maintain => false
  | .service => true
  | .runNext => true
  | .readTime => false
  | .readStatus => false
  | .readSlot _ => false
  | .countParam _ => false
  | .writeCtrl _ => false

end Sys2Proof

namespace Sys2Proof.Machine

/-- Every element of R18, and the parameters, are the same in both states. The model's own fields (the
chosen steps and the response port) may differ. -/
abbrev State.SameTes (s t : State) : Prop :=
  (t.timeWidth = s.timeWidth ∧ t.rawWidth = s.rawWidth) ∧ t.now = s.now ∧ t.slots = s.slots ∧
    t.seqNext = s.seqNext ∧ (t.cmpArmed = s.cmpArmed ∧ t.cmpValue = s.cmpValue) ∧
    t.irqPending = s.irqPending ∧ t.irqEn = s.irqEn

/-- What no event-set command writes (R31): the parameters, the number of slots, `NOW`, `IRQ_EN`, and
the model's own record of whose turn it is. -/
abbrev State.Kept (s t : State) : Prop :=
  (t.timeWidth = s.timeWidth ∧ t.rawWidth = s.rawWidth ∧ t.nslot = s.nslot) ∧ t.now = s.now ∧
    t.irqEn = s.irqEn ∧ t.inputs = s.inputs ∧ t.serving = s.serving

/-- The nearest pending deadline, `S[SELECT(PEND)].DEADLINE` (R71, R73). -/
def State.nearest (s : State) : Option Word := (s.select s.pend).map (fun b => (s.slot b).deadline)

/-- What ARM leaves in the timer and the interrupt (R73), said about the state `t` after it: `cmp` and
`pending` are `CMP_VALUE` and `IRQ_PENDING` before it. -/
def State.Programmed (cmp : Word) (pending : Bool) (t : State) : Prop :=
  match t.nearest with
  | none => t.cmpArmed = false ∧ t.cmpValue = cmp ∧ t.irqPending = pending
  | some d => t.cmpArmed = true ∧ t.cmpValue = d ∧ t.irqPending = (pending || t.isDue d)

/-- Times fit in `TW` bits (R18, R21): the representation of log entry 4. -/
abbrev State.WidthInv (s : State) : Prop :=
  s.now.toNat < 2 ^ s.timeWidth ∧ s.cmpValue.toNat < 2 ^ s.timeWidth ∧
    ∀ x ∈ s.slots, x.deadline.toNat < 2 ^ s.timeWidth

/-- The slot invariants 1 and 2 of R22. Invariant 3 holds of every list of `NSLOT` slots. -/
abbrev State.SlotInv (s : State) : Prop :=
  ∀ x ∈ s.slots, (x.due = true → x.valid = true) ∧ (x.valid = false → x = Slot.free)

/-- The timer invariant of R33. -/
abbrev State.TimerInv (s : State) : Prop :=
  (s.cmpArmed = false ∧ s.pend = []) ∨
    (s.cmpArmed = true ∧ s.pend ≠ [] ∧ s.nearest = some s.cmpValue)

/-- The invariant of every reachable state of a legal instance (R6, R18, R22, R33). -/
abbrev State.Inv (s : State) : Prop := s.params.Legal ∧ s.WidthInv ∧ s.SlotInv ∧ s.TimerInv

/-- The conclusion of R34: `IRQ_PENDING` is set, or no pending event is due. -/
abbrev State.IrqInv (s : State) : Prop :=
  s.irqPending = true ∨ ∀ i ∈ s.pend, s.isDue (s.slot i).deadline = false

/-- `L = 2^(TW-2) - 1` (R112). -/
def State.horizon (s : State) : Nat := 2 ^ (s.timeWidth - 2) - 1

/-- The horizon condition of R112 on one state: every live deadline within `L` ticks of `NOW`. -/
abbrev State.InHorizon (s : State) : Prop :=
  ∀ i ∈ s.live, -(s.horizon : Int) ≤ sdiff s.timeWidth (s.slot i).deadline s.now ∧
    sdiff s.timeWidth (s.slot i).deadline s.now ≤ s.horizon

/-- `(v - base) mod 2^W` (R72). -/
def offset (width : Nat) (base v : Word) : Nat := (v - base).toNat % 2 ^ width

/-- The first condition of R72 on a set of slots: every deadline lies in the half range above `base`. -/
abbrev State.DeadlinesFrom (s : State) (base : Word) (xs : List Nat) : Prop :=
  ∀ i ∈ xs, offset s.timeWidth base (s.slot i).deadline < 2 ^ (s.timeWidth - 1)

/-- The second condition of R72 on a set of slots: every `SEQ` lies in the half range above `base`. -/
abbrev State.SeqsFrom (s : State) (base : Word) (xs : List Nat) : Prop :=
  ∀ i ∈ xs, offset 32 base (s.slot i).seq < 2 ^ 31

/-- No live event has this handle. -/
abbrev State.HandleDead (s : State) (h : Word) : Prop := ∀ i ∈ s.live, (s.slot i).seq ≠ h

/-- No two live events share a handle, and none has the handle that the next SCHEDULE assigns (the case
R25 bounds). -/
abbrev State.HandlesUnique (s : State) : Prop :=
  (∀ i ∈ s.live, ∀ j ∈ s.live, (s.slot i).seq = (s.slot j).seq → i = j) ∧ s.HandleDead s.seqNext

/-- The instruction a chosen step carries, if it is a transaction with a legal command word. -/
def inputInstr : Input → Option Instr
  | .tick => none
  | .reset => none
  | .command _ r =>
    match decode r with
    | .ok i => some i
    | .error _ => none

/-- The issuers' duties of R95 that concern what is sent: the interrupt context sends no event-set command
but SERVICE (duty 1), and the normal context does not send SERVICE (duty 3). -/
def dutiful (x : Input) : Bool :=
  match x, inputInstr x with
  | .command .interrupt _, some i => !i.eventSet || i == .service
  | .command .normal _, some i => i != .service
  | _, _ => true

end Sys2Proof.Machine
end

