-- ==== Sys2Proof/Certificates/Slice0/Obligations.lean ====
section
/-!
DEFINITION. The statements for the provers. Each docstring names the rule of spec/ it formalises, or says
that it rests on an inference the spec marks `[derived]` or on a log entry of the model. `Kept`,
`Programmed`, `SameTes` and the invariants are defined in Safety.lean. `(fetch s).1` is the step the
environment takes next.
-/

open Sys2Proof Sys2Proof.Machine

/-! ### Encoding -/

/-- 30_encoding.md R52, R53, R57: no bit of an encoding is dropped, for every instruction and every operand
its encoding admits. -/
def Obligations.DecodeOfEncodeIsTheInstruction : Prop :=
  ∀ i : Instr, i.WellFormed → decode (encode i) = .ok i

/-- 30_encoding.md R52, R53, R57: the other direction, up to the operand words R53 marks ignored. -/
def Obligations.DecodedInstructionEncodesBack : Prop :=
  ∀ (r : Request) (i : Instr), decode r = .ok i →
    i.WellFormed ∧ (encode i).cmd = r.cmd ∧ (1 ≤ i.operandWords → (encode i).arg0 = r.arg0) ∧
      (2 ≤ i.operandWords → (encode i).arg1 = r.arg1) ∧ (3 ≤ i.operandWords → (encode i).arg2 = r.arg2)

/-- 30_encoding.md R57: "A word matches at most one row. A word that matches no row is illegal." A word
that matches a row is that row's instruction, but for one with a nonzero `SLOT`, which the mask of
WRITE_CTRL lets through and R52 and R61 make illegal (log entry 14). -/
def Obligations.OpcodeMapRowsDecideTheInstruction : Prop :=
  ∀ r : Request,
    (∀ row ∈ opcodeMap, ∀ row' ∈ opcodeMap, row.covers r.cmd = true → row'.covers r.cmd = true →
      row = row') ∧
    (∀ row ∈ opcodeMap, row.covers r.cmd = true →
      (r.cmd.toNat / 2 ^ 8 % 256 = 0 ∨ row.mnemonic = "READ_SLOT") →
      ∃ i, decode r = .ok i ∧ i.mnemonic = row.mnemonic) ∧
    ((∀ row ∈ opcodeMap, row.covers r.cmd = false) → ∃ e, decode r = .error e)

/-- 30_encoding.md R61: exactly which command words are illegal, with the fields of R52 read as numbers,
and what an illegal command does: ILLEGAL_COMMAND, five zero results, no state change, not even through
ARM. That a nonzero `SLOT` is illegal on OPC 11 too, which the masks of R57 and R90 let through, is the
model's reading (log entry 14, DEDUCED); the list of chosen steps and the response port are its own fields
(log entries 1 and 5). -/
def Obligations.IllegalCommandsAreRefusedWithoutEffect : Prop :=
  ∀ (s : State) (who : Issuer) (r : Request) (rest : List Input), s.inputs = .command who r :: rest →
    r.cmd.toNat % 256 = 0 ∨ 12 ≤ r.cmd.toNat % 256 ∨ r.cmd.toNat / 2 ^ 24 ≠ 0 ∨
      (r.cmd.toNat / 2 ^ 8 % 256 ≠ 0 ∧ r.cmd.toNat % 256 ≠ 9) ∨
      (r.cmd.toNat / 2 ^ 16 % 256 ≠ 0 ∧ r.cmd.toNat % 256 ≠ 11) ∨
      (r.cmd.toNat % 256 = 11 ∧ r.cmd.toNat / 2 ^ 17 % 128 ≠ 0) →
    step s = .next { s with
      inputs := rest, serving := some who, response := some ⟨.illegalCommand, 0, 0, 0, 0, 0⟩ }

/-- 30_encoding.md R61, the other side: a word that meets none of its conditions is a command. -/
def Obligations.OtherCommandWordsAreLegal : Prop :=
  ∀ r : Request, 1 ≤ r.cmd.toNat % 256 → r.cmd.toNat % 256 ≤ 11 → r.cmd.toNat / 2 ^ 24 = 0 →
    (r.cmd.toNat / 2 ^ 8 % 256 = 0 ∨ r.cmd.toNat % 256 = 9) →
    (r.cmd.toNat / 2 ^ 16 % 256 = 0 ∨ r.cmd.toNat % 256 = 11) →
    (r.cmd.toNat % 256 = 11 → r.cmd.toNat / 2 ^ 17 % 128 = 0) →
    ∃ i, decode r = .ok i ∧ i.WellFormed

/-- 30_encoding.md R56: an operand word that R53 marks "ignored" may hold any value; the command is the
same. -/
def Obligations.IgnoredOperandWordsDoNotMatter : Prop :=
  ∀ (r r' : Request) (i : Instr), decode r = .ok i → r'.cmd = r.cmd →
    (1 ≤ i.operandWords → r'.arg0 = r.arg0) → (2 ≤ i.operandWords → r'.arg1 = r.arg1) →
    (3 ≤ i.operandWords → r'.arg2 = r.arg2) → decode r' = .ok i

/-- 30_encoding.md R54: SCHEDULE keeps the low `TW` bits of `ARG0` as the deadline, and the bits above
cause no difference and no error. -/
def Obligations.DeadlineIsTheLowBitsOfItsOperand : Prop :=
  ∀ (s : State) (d d' cb p : Word), s.timeWidth ≤ 32 →
    (d.toNat % 2 ^ s.timeWidth = d'.toNat % 2 ^ s.timeWidth →
      exec (.schedule d cb p) s = exec (.schedule d' cb p) s) ∧
    (∀ f, s.freeSlots.head? = some f → ∃ t, exec (.schedule d cb p) s = .next t ∧
      (t.slot f).deadline.toNat = d.toNat % 2 ^ s.timeWidth)

/-- 30_encoding.md R57, R52: words written out from the opcode map decode to the instructions they stand
for. -/
def Obligations.WordsOfTheOpcodeMapDecode : Prop :=
  decode ⟨0x00000001, 100, 0xCB000001, 0xA⟩ = .ok (.schedule 100 0xCB000001 0xA) ∧
  decode ⟨0x00000002, 7, 0, 0⟩ = .ok (.cancel 7) ∧ decode ⟨0x00000003, 0xA, 0, 0⟩ = .ok (.cancelAll 0xA) ∧
  decode ⟨0x00000004, 0, 0, 0⟩ = .ok .maintain ∧ decode ⟨0x00000005, 0, 0, 0⟩ = .ok .service ∧
  decode ⟨0x00000006, 0, 0, 0⟩ = .ok .runNext ∧ decode ⟨0x00000007, 0, 0, 0⟩ = .ok .readTime ∧
  decode ⟨0x00000008, 0, 0, 0⟩ = .ok .readStatus ∧ decode ⟨0x0000FF09, 0, 0, 0⟩ = .ok (.readSlot 0xFF) ∧
  decode ⟨0x0000000A, 0xB, 0, 0⟩ = .ok (.countParam 0xB) ∧ decode ⟨0x0001000B, 0, 0, 0⟩ = .ok (.writeCtrl 1)

/-- 30_encoding.md R65, R66: every command line an assembler accepts sends a legal word, it refuses a slot
above 255 and a control value above 1 and nothing else of a command line, and the pseudo-commands are
the words R66 gives. -/
def Obligations.AssembledLinesAreLegalCommands : Prop :=
  (∀ (line : Line) (r : Request), line.request? = some r → ∃ i, decode r = .ok i ∧ i.WellFormed) ∧
  (∀ n, (Line.readSlot n).request? = none ↔ 255 < n) ∧
  (∀ n, (Line.writeCtrl n).request? = none ↔ 1 < n) ∧
  Line.irqOn.request? = (Line.writeCtrl 1).request? ∧
  Line.irqOff.request? = (Line.writeCtrl 0).request? ∧
  (∀ p, (Line.cancelTag p).request? = (Line.cancelAll p).request?)

/-! ### The step -/

/-- 20_memory.md R41, 30_encoding.md R51, and log entries 1 and 5 (the chosen steps and the response port
are the model's): where the next chosen step is a transaction whose command word is legal, the step is
that instruction's execution, with the transaction taken off the list and its issuer noted. -/
def Obligations.StepRunsTheDecodedInstruction : Prop :=
  ∀ (s : State) (who : Issuer) (r : Request) (rest : List Input) (i : Instr),
    s.inputs = .command who r :: rest → decode r = .ok i →
    step s = exec i { s with inputs := rest, serving := some who, response := none }

/-- Log entry 2 (DEDUCED from R91, R106): where the environment has chosen nothing, the tick source acts. -/
def Obligations.UnchosenStepIsATick : Prop :=
  ∀ s : State, s.inputs = [] → step s = step { s with inputs := [.tick] }

/-- 60_exceptions.md R96, 70_reset_and_hazards.md R120, 30_encoding.md R51: no step stops; every transaction
takes exactly one step and gets exactly one response, addressed to its issuer; a tick and a reset return
none (log entry 5). -/
def Obligations.EveryStepAnswersAndEveryCommandGetsAResponse : Prop :=
  ∀ s : State, ∃ t, step s = .next t ∧ t.inputs = s.inputs.tail ∧
    (∀ who r rest, s.inputs = .command who r :: rest → t.serving = some who ∧ t.response.isSome = true) ∧
    ((∀ who r rest, s.inputs ≠ .command who r :: rest) → t.response = none)

/-- 00_scope.md R12 (`raise`), 60_exceptions.md R96: whatever the step, a status other than OK comes with
five zero results and no change of any element of the TES. -/
def Obligations.FailedCommandChangesNothing : Prop :=
  ∀ (s t : State) (r : Response), step s = .next t → t.response = some r → r.status ≠ .ok →
    s.SameTes t ∧ r.res0 = 0 ∧ r.res1 = 0 ∧ r.res2 = 0 ∧ r.res3 = 0 ∧ r.res4 = 0

/-- 30_encoding.md R59, R60: the status of a transaction is one of the six, each exactly on its cause, and
the six numbers. -/
def Obligations.StatusIsDecidedByItsCause : Prop :=
  (∀ (s : State) (who : Issuer) (q : Request) (rest : List Input), s.inputs = .command who q :: rest →
    ∃ t r, step s = .next t ∧ t.response = some r ∧
      (r.status = .illegalCommand ↔ ∃ e, decode q = .error e) ∧
      (r.status = .badSlot ↔ ∃ k, decode q = .ok (.readSlot k) ∧ s.nslot ≤ k.toNat) ∧
      (r.status = .capacityExceeded ↔ ∃ d cb p, decode q = .ok (.schedule d cb p) ∧ s.freeSlots = []) ∧
      (r.status = .notFound ↔ ∃ h, decode q = .ok (.cancel h) ∧ s.HandleDead h) ∧
      (r.status = .noneDue ↔ decode q = .ok .runNext ∧ s.ready = [])) ∧
  statusCode .ok = 0 ∧ statusCode .capacityExceeded = 1 ∧ statusCode .notFound = 2 ∧
    statusCode .noneDue = 3 ∧ statusCode .badSlot = 4 ∧ statusCode .illegalCommand = 5

/-! ### The tick, the raw counter and reset -/

/-- 60_exceptions.md R91, R92: a tick counts `NOW` up modulo `2^TW`, sets `IRQ_PENDING` on equality with
`CMP_VALUE` while armed, and writes nothing else, whatever the state. No command moves `NOW`, and reset
loads it with 0. That the tick is taken off the list of chosen steps and leaves the response port empty is
the model's choice (log entries 1 and 5), not R91's. -/
def Obligations.TickAdvancesTimeAndMatches : Prop :=
  (∀ i u v, exec i u = .next v → v.now = u.now) ∧
  (∀ u rest, u.inputs = .reset :: rest → ∃ v, step u = .next v ∧ v.now = 0) ∧
  ∀ (s : State) (rest : List Input), s.timeWidth ≤ 32 → s.inputs = .tick :: rest →
    ∃ t, step s = .next t ∧ t.now.toNat = (s.now.toNat + 1) % 2 ^ s.timeWidth ∧
      t.irqPending = (s.irqPending || (s.cmpArmed && decide (t.now = s.cmpValue))) ∧
      (t.timeWidth = s.timeWidth ∧ t.rawWidth = s.rawWidth) ∧ t.slots = s.slots ∧
      t.seqNext = s.seqNext ∧ (t.cmpArmed = s.cmpArmed ∧ t.cmpValue = s.cmpValue) ∧
      t.irqEn = s.irqEn ∧ t.inputs = rest ∧ t.serving = none ∧ t.response = none

/-- 60_exceptions.md R92: an armed timer matches when `NOW` has counted up to `CMP_VALUE`, which is after at
most `2^TW` ticks if nothing re-arms it, and stays armed for the same time, whatever the event set. -/
def Obligations.ArmedTimerMatchesWhenTimeReachesIt : Prop :=
  ∀ (s : State) (k : Nat) (rest : List Input), s.timeWidth ≤ 32 → s.cmpArmed = true → 1 ≤ k →
    k ≤ 2 ^ s.timeWidth → trunc s.timeWidth (s.now + BitVec.ofNat 32 k) = s.cmpValue →
    s.inputs = List.replicate k .tick ++ rest →
    ∃ t : State, core.run k s = .next t ∧ t.now = s.cmpValue ∧ t.irqPending = true ∧ t.cmpArmed = true ∧
      t.cmpValue = s.cmpValue ∧ t.slots = s.slots ∧ t.inputs = rest

/-- 10_state.md R20: the raw counter is the low `RW` bits of `NOW`, counts modulo `2^RW`, and the upper bits
count up exactly when it wraps to 0; READ_TIME `RES1` returns it. -/
def Obligations.RawCounterIsExtendedExactly : Prop :=
  ∀ (s : State) (rest : List Input), 1 ≤ s.rawWidth → s.rawWidth < s.timeWidth → s.timeWidth ≤ 32 →
    s.now.toNat < 2 ^ s.timeWidth → s.inputs = .tick :: rest →
    s.raw.toNat = s.now.toNat % 2 ^ s.rawWidth ∧
    ∃ t, step s = .next t ∧ t.raw.toNat = (s.raw.toNat + 1) % 2 ^ s.rawWidth ∧
      t.now.toNat / 2 ^ s.rawWidth =
        (s.now.toNat / 2 ^ s.rawWidth + if t.raw.toNat = 0 then 1 else 0) % 2 ^ (s.timeWidth - s.rawWidth) ∧
      exec .readTime t = .next { t with response := some ⟨.ok, t.now, t.raw, 0, 0, 0⟩ }

/-- 70_reset_and_hazards.md R107, 10_state.md R35: reset sets every element to its reset value at once, in
an instance of the same parameters, and returns no response; the low IRQ output is R35's inference from R29
([derived]). That the later chosen steps are kept is the model's choice (log entry 17), and so is the
response port (log entry 5). -/
def Obligations.ResetClearsEveryElement : Prop :=
  ∀ (s : State) (rest : List Input), s.inputs = .reset :: rest → ∃ t, step s = .next t ∧ t.now = 0 ∧
    (t.nslot = s.nslot ∧ ∀ i, t.slot i = ⟨false, false, 0, 0, 0, 0⟩) ∧ t.seqNext = 0 ∧
    (t.cmpArmed = false ∧ t.cmpValue = 0) ∧ t.irqPending = false ∧ t.irqEn = false ∧ t.irq = false ∧
    (t.timeWidth = s.timeWidth ∧ t.rawWidth = s.rawWidth) ∧ t.inputs = rest ∧ t.response = none

/-- 70_reset_and_hazards.md R109 ([derived]): the reset state of every legal instance satisfies the
invariants, with the IRQ output low; `State.reset` is the one at the defaults of R6. -/
def Obligations.ResetStateSatisfiesTheInvariants : Prop :=
  State.reset = State.resetWith ⟨32, 16, 8⟩ ∧
  ∀ p : Params, p.Legal → (State.resetWith p).Inv ∧ (State.resetWith p).IrqInv ∧
    (State.resetWith p).InHorizon ∧ (State.resetWith p).HandlesUnique ∧ (State.resetWith p).irq = false ∧
    (State.resetWith p).params = p

/-! ### The commands, each with its encoding, its result and its frame -/

/-- 40_time_compare.md R76: READ_TIME answers OK with `NOW` and its low `RW` bits and changes nothing. -/
def Obligations.ReadTimeReturnsTime : Prop :=
  (∀ a0 a1 a2 : Word, decode ⟨0x00000007, a0, a1, a2⟩ = .ok .readTime) ∧
  ∀ s : State, s.rawWidth ≤ 32 → ∃ low : Word, low.toNat = s.now.toNat % 2 ^ s.rawWidth ∧
    exec .readTime s = .next { s with response := some ⟨.ok, s.now, low, 0, 0, 0⟩ }

/-- 41_schedule_cancel.md R77: SCHEDULE with no free slot answers CAPACITY_EXCEEDED and changes nothing;
otherwise it fills the lowest free slot, returns and counts up `SEQ_NEXT`, and re-arms; every other slot
and element is kept. -/
def Obligations.ScheduleAddsOneEvent : Prop :=
  (∀ d cb p : Word, decode ⟨0x00000001, d, cb, p⟩ = .ok (.schedule d cb p)) ∧
  ∀ (s : State) (d cb p : Word),
    ((∀ i, i < s.nslot → (s.slot i).valid = true) → exec (.schedule d cb p) s =
      .next { s with response := some ⟨.capacityExceeded, 0, 0, 0, 0, 0⟩ }) ∧
    (∀ f, f < s.nslot → (s.slot f).valid = false → (∀ i, i < f → (s.slot i).valid = true) →
      ∃ t, exec (.schedule d cb p) s = .next t ∧ s.Kept t ∧
        (∀ i, t.slot i = if i = f then ⟨true, false, trunc s.timeWidth d, cb, p, s.seqNext⟩ else s.slot i) ∧
        t.seqNext = s.seqNext + 1 ∧ t.Programmed s.cmpValue s.irqPending ∧
        t.response = some ⟨.ok, s.seqNext, 0, 0, 0, 0⟩)

/-- 41_schedule_cancel.md R78: CANCEL of a handle no live event has answers NOT_FOUND and changes nothing;
otherwise it frees the lowest live slot with that handle, latched or not, and re-arms. -/
def Obligations.CancelRemovesOneEvent : Prop :=
  (∀ h a1 a2 : Word, decode ⟨0x00000002, h, a1, a2⟩ = .ok (.cancel h)) ∧
  ∀ (s : State) (h : Word),
    ((∀ i, i < s.nslot → (s.slot i).valid = true → (s.slot i).seq ≠ h) → exec (.cancel h) s =
      .next { s with response := some ⟨.notFound, 0, 0, 0, 0, 0⟩ }) ∧
    (∀ k, (s.slot k).valid = true → (s.slot k).seq = h →
      (∀ i, i < k → (s.slot i).valid = true → (s.slot i).seq ≠ h) →
      ∃ t, exec (.cancel h) s = .next t ∧ s.Kept t ∧
        (∀ i, t.slot i = if i = k then ⟨false, false, 0, 0, 0, 0⟩ else s.slot i) ∧
        t.seqNext = s.seqNext ∧ t.Programmed s.cmpValue s.irqPending ∧
        t.response = some ⟨.ok, 0, 0, 0, 0, 0⟩)

/-- 41_schedule_cancel.md R79: CANCEL_ALL always answers OK with the number of live events that had the
parameter, frees exactly those, latched or not, and re-arms. -/
def Obligations.CancelAllRemovesEveryTaggedEvent : Prop :=
  (∀ p a1 a2 : Word, decode ⟨0x00000003, p, a1, a2⟩ = .ok (.cancelAll p)) ∧
  ∀ (s : State) (p : Word), s.nslot ≤ 256 → ∃ t n, exec (.cancelAll p) s = .next t ∧ s.Kept t ∧
    (∀ i, t.slot i = if (s.slot i).valid = true ∧ (s.slot i).param = p then ⟨false, false, 0, 0, 0, 0⟩
      else s.slot i) ∧
    n.toNat = (s.live.filter (fun i => (s.slot i).param = p)).length ∧
    t.seqNext = s.seqNext ∧ t.Programmed s.cmpValue s.irqPending ∧ t.response = some ⟨.ok, n, 0, 0, 0, 0⟩

/-- 41_schedule_cancel.md R80 with 40_time_compare.md R73: MAINTAIN is ARM: it programs the timer for the
nearest pending deadline or disarms it, raises the interrupt if that deadline is due, and never clears
it; no slot changes. -/
def Obligations.MaintainProgramsTheTimer : Prop :=
  (∀ a0 a1 a2 : Word, decode ⟨0x00000004, a0, a1, a2⟩ = .ok .maintain) ∧
  ∀ s : State, ∃ t, exec .maintain s = .next t ∧ s.Kept t ∧ t.slots = s.slots ∧ t.seqNext = s.seqNext ∧
    (s.select s.pend = none → t.cmpArmed = false ∧ t.cmpValue = s.cmpValue ∧
      t.irqPending = s.irqPending) ∧
    (∀ b, s.select s.pend = some b → t.cmpArmed = true ∧ t.cmpValue = (s.slot b).deadline ∧
      t.irqPending = (s.irqPending || s.isDue (s.slot b).deadline)) ∧
    t.response = some ⟨.ok, 0, 0, 0, 0, 0⟩

/-- 42_dispatch.md R81: SERVICE latches exactly the pending events whose deadline has been reached, returns
how many, clears `IRQ_PENDING` and re-arms; "run ASAP" never applies inside it, so `IRQ_PENDING` is 0
when it returns (R81 marks this clause [derived] from R73 and R69). -/
def Obligations.ServiceLatchesTheDueEvents : Prop :=
  (∀ a0 a1 a2 : Word, decode ⟨0x00000005, a0, a1, a2⟩ = .ok .service) ∧
  ∀ s : State, s.nslot ≤ 256 → ∃ t n, exec .service s = .next t ∧ s.Kept t ∧
    (∀ i, t.slot i = if (s.slot i).valid = true ∧ (s.slot i).due = false ∧
        0 ≤ sdiff s.timeWidth s.now (s.slot i).deadline
      then { s.slot i with due := true } else s.slot i) ∧
    n.toNat = (s.pend.filter (fun i => s.isDue (s.slot i).deadline)).length ∧
    t.seqNext = s.seqNext ∧ t.Programmed s.cmpValue false ∧ t.irqPending = false ∧
    t.response = some ⟨.ok, n, 0, 0, 0, 0⟩

/-- 42_dispatch.md R82: RUN_NEXT with nothing latched answers NONE_DUE and changes nothing; otherwise it
frees SELECT(READY), returns that event, and re-arms, which leaves the timer as it was where R33 held (R82
marks this clause [derived] from R73 and R33). -/
def Obligations.RunNextPopsOneLatchedEvent : Prop :=
  (∀ a0 a1 a2 : Word, decode ⟨0x00000006, a0, a1, a2⟩ = .ok .runNext) ∧
  ∀ s : State,
    ((∀ i, (s.slot i).valid = true → (s.slot i).due = false) →
      exec .runNext s = .next { s with response := some ⟨.noneDue, 0, 0, 0, 0, 0⟩ }) ∧
    (∀ i, (s.slot i).valid = true → (s.slot i).due = true → s.nslot ≤ 256 →
      ∃ t b n, exec .runNext s = .next t ∧ s.select s.ready = some b ∧ s.Kept t ∧
        (∀ j, t.slot j = if j = b then ⟨false, false, 0, 0, 0, 0⟩ else s.slot j) ∧
        t.seqNext = s.seqNext ∧ t.Programmed s.cmpValue s.irqPending ∧
        (s.TimerInv → t.cmpArmed = s.cmpArmed ∧ t.cmpValue = s.cmpValue) ∧ n.toNat = b ∧
        t.response = some ⟨.ok, (s.slot b).callback, (s.slot b).param, (s.slot b).seq,
          (s.slot b).deadline, n⟩)

/-- 43_observe_control.md R87: READ_STATUS answers OK with the four flags, `CMP_VALUE` armed or not, the
numbers of live and of latched events, and `SEQ_NEXT`, and changes nothing. -/
def Obligations.ReadStatusReportsTheState : Prop :=
  (∀ a0 a1 a2 : Word, decode ⟨0x00000008, a0, a1, a2⟩ = .ok .readStatus) ∧
  ∀ s : State, s.nslot ≤ 256 → ∃ flags n m : Word,
    exec .readStatus s = .next { s with response := some ⟨.ok, flags, s.cmpValue, n, m, s.seqNext⟩ } ∧
    flags.getLsbD 0 = s.irqEn ∧ flags.getLsbD 1 = s.irqPending ∧ flags.getLsbD 2 = s.cmpArmed ∧
    flags.getLsbD 3 = (s.irqPending && s.irqEn) ∧ flags.toNat < 16 ∧ n.toNat = s.live.length ∧
    m.toNat = s.ready.length ∧ s.live.length - s.ready.length = s.pend.length

/-- 43_observe_control.md R88: READ_SLOT answers OK with the slot's fields, or BAD_SLOT exactly where
`SLOT >= NSLOT`, and changes nothing; a free slot reads as all zeros (10_state.md R22). -/
def Obligations.ReadSlotReportsTheSlot : Prop :=
  (∀ (k : BitVec 8) (r : Request), r.cmd.toNat = 9 + 256 * k.toNat → decode r = .ok (.readSlot k)) ∧
  ∀ (s : State) (k : BitVec 8),
    (s.nslot ≤ k.toNat →
      exec (.readSlot k) s = .next { s with response := some ⟨.badSlot, 0, 0, 0, 0, 0⟩ }) ∧
    (k.toNat < s.nslot → ∃ flags : Word, flags.getLsbD 0 = (s.slot k.toNat).valid ∧
      flags.getLsbD 1 = (s.slot k.toNat).due ∧ flags.toNat < 4 ∧
      exec (.readSlot k) s = .next { s with response := some ⟨.ok, flags, (s.slot k.toNat).deadline,
        (s.slot k.toNat).callback, (s.slot k.toNat).param, (s.slot k.toNat).seq⟩ } ∧
      (s.SlotInv → (s.slot k.toNat).valid = false →
        flags = 0 ∧ (s.slot k.toNat).deadline = 0 ∧ (s.slot k.toNat).callback = 0 ∧
          (s.slot k.toNat).param = 0 ∧ (s.slot k.toNat).seq = 0))

/-- 43_observe_control.md R89: COUNT_PARAM answers OK with the number of live events, latched or not, that
have the parameter, and changes nothing. -/
def Obligations.CountParamCountsLiveEvents : Prop :=
  (∀ p a1 a2 : Word, decode ⟨0x0000000A, p, a1, a2⟩ = .ok (.countParam p)) ∧
  ∀ (s : State) (p : Word), s.nslot ≤ 256 → ∃ n : Word,
    exec (.countParam p) s = .next { s with response := some ⟨.ok, n, 0, 0, 0, 0⟩ } ∧
    n.toNat = ((List.range s.nslot).filter
      (fun i => (s.slot i).valid = true ∧ (s.slot i).param = p)).length

/-- 43_observe_control.md R90 with 10_state.md R29: WRITE_CTRL writes `IRQ_EN` and nothing else, and the IRQ
output follows at once. A word whose `CTRLV[7:1]` is not 0 is illegal (what it then does
is IllegalCommandsAreRefusedWithoutEffect). -/
def Obligations.WriteCtrlWritesTheEnable : Prop :=
  (∀ (c : BitVec 8) (r : Request), r.cmd.toNat = 11 + 65536 * c.toNat →
    (c.toNat ≤ 1 → decode r = .ok (.writeCtrl c)) ∧ (2 ≤ c.toNat → ∃ e, decode r = .error e)) ∧
  ∀ (s : State) (c : BitVec 8), ∃ t, exec (.writeCtrl c) s = .next t ∧
    t = { s with irqEn := decide (c.toNat % 2 = 1), response := some ⟨.ok, 0, 0, 0, 0, 0⟩ } ∧
    t.irq = (s.irqPending && decide (c.toNat % 2 = 1))

/-! ### Whole-machine rules -/

/-- 10_state.md R31 ([derived]): the access table, over all commands: what each leaves unwritten. -/
def Obligations.AccessTableIsKept : Prop :=
  ∀ (i : Instr) (s t : State), exec i s = .next t →
    t.now = s.now ∧ t.params = s.params ∧ t.inputs = s.inputs ∧
    ((∀ d cb p, i ≠ .schedule d cb p) → t.seqNext = s.seqNext) ∧
    ((∀ c, i ≠ .writeCtrl c) → t.irqEn = s.irqEn) ∧
    (i.eventSet = false → t.slots = s.slots) ∧
    (i = .service → ∀ k, { t.slot k with due := (s.slot k).due } = s.slot k) ∧
    (i.eventSet = false → i ≠ .maintain →
      t.cmpArmed = s.cmpArmed ∧ t.cmpValue = s.cmpValue ∧ t.irqPending = s.irqPending)

/-- 20_memory.md R48 ([derived]), 60_exceptions.md R105: a read-only command changes no element of the TES,
and repeating it with no step in between returns the same response. -/
def Obligations.ReadOnlyCommandsHaveNoSideEffect : Prop :=
  ∀ (i : Instr) (s t : State), i.readOnly = true → exec i s = .next t → s.SameTes t ∧ exec i t = .next t

/-- 20_memory.md R48, 41_schedule_cancel.md R80 ([derived]): MAINTAIN twice is MAINTAIN once, and where R33
holds it moves neither `CMP_ARMED` nor `CMP_VALUE`. -/
def Obligations.MaintainIsIdempotentAndMovesNoArmedTimer : Prop :=
  ∀ s t : State, exec .maintain s = .next t → exec .maintain t = .next t ∧
    (s.TimerInv → t.cmpArmed = s.cmpArmed ∧ t.cmpValue = s.cmpValue)

/-- 20_memory.md R48, 42_dispatch.md R81 ([derived]): after SERVICE no pending event is due, and a second
SERVICE with no step in between latches nothing, returns 0 and changes nothing. -/
def Obligations.SecondServiceLatchesNothing : Prop :=
  ∀ s t : State, exec .service s = .next t →
    (∀ i ∈ t.pend, t.isDue (t.slot i).deadline = false) ∧
    exec .service t = .next { t with response := some ⟨.ok, 0, 0, 0, 0, 0⟩ }

/-- 10_state.md R27: `IRQ_PENDING` is set by a compare match and by ARM's "run ASAP" alone, and cleared by
SERVICE and reset alone. -/
def Obligations.IrqPendingHasTwoSettersAndTwoClearers : Prop :=
  ∀ s t : State, step s = .next t →
    (s.irqPending = true → t.irqPending = false →
      (fetch s).1 = .reset ∨ inputInstr (fetch s).1 = some .service) ∧
    (s.irqPending = false → t.irqPending = true →
      ((fetch s).1 = .tick ∧ t.cmpArmed = true ∧ t.now = t.cmpValue) ∨
      (∃ i d, inputInstr (fetch s).1 = some i ∧ (i.eventSet = true ∨ i = .maintain) ∧
        t.nearest = some d ∧ t.isDue d = true))

/-- 10_state.md R19, 60_exceptions.md R91: no command moves `NOW`; a tick counts it up by one modulo `2^TW`;
reset alone loads it. -/
def Obligations.OnlyTicksAndResetMoveTime : Prop :=
  ∀ s t : State, s.timeWidth ≤ 32 → step s = .next t →
    ((fetch s).1 = .tick ∧ t.now.toNat = (s.now.toNat + 1) % 2 ^ s.timeWidth) ∨
    ((fetch s).1 = .reset ∧ t.now = 0) ∨ (∃ who r, (fetch s).1 = .command who r ∧ t.now = s.now)

/-- 10_state.md R24: a successful SCHEDULE gives its event the value of `SEQ_NEXT`, returns it as the
handle and counts `SEQ_NEXT` up modulo `2^32`; nothing else writes `SEQ_NEXT` except reset. -/
def Obligations.OnlySuccessfulScheduleAdvancesSeqNext : Prop :=
  ∀ s t : State, step s = .next t → (fetch s).1 ≠ .reset →
    t.seqNext = s.seqNext ∨
    ((∃ d cb p, inputInstr (fetch s).1 = some (.schedule d cb p)) ∧
      t.seqNext.toNat = (s.seqNext.toNat + 1) % 2 ^ 32 ∧
      t.response = some ⟨.ok, s.seqNext, 0, 0, 0, 0⟩ ∧
      ∃ f, (s.slot f).valid = false ∧ (t.slot f).valid = true ∧ (t.slot f).seq = s.seqNext)

/-- 00_scope.md R7: no step of any agent changes `TW`, `RW` or `NSLOT`. -/
def Obligations.ParametersNeverChange : Prop :=
  ∀ s t : State, step s = .next t → t.params = s.params

/-- 60_exceptions.md R101: the TES checks no issuer identity: the same transaction from the other context
does the same and answers the same, to that context. -/
def Obligations.IssuerIdentityHasNoEffect : Prop :=
  ∀ (s t : State) (who who' : Issuer) (r : Request) (rest : List Input),
    step { s with inputs := .command who r :: rest } = .next t →
    step { s with inputs := .command who' r :: rest } = .next { t with serving := some who' }

/-- 10_state.md R16: nothing of an earlier transaction's operands or results is visible to a later one: the
last response and its issuer do not influence a step. -/
def Obligations.EarlierResponsesAreNotVisible : Prop :=
  ∀ (s : State) (last : Option Response) (who : Option Issuer),
    step { s with response := last, serving := who } = step s

/-- 60_exceptions.md R94 ([derived]), 10_state.md R28: masking holds only the output: for every step, what
happens to time, the slots, the timer and `IRQ_PENDING` does not depend on `IRQ_EN`. -/
def Obligations.MaskingLosesNothing : Prop :=
  ∀ (s t : State) (b : Bool), step s = .next t →
    ∃ t', step { s with irqEn := b } = .next t' ∧ t'.now = t.now ∧ t'.slots = t.slots ∧
      t'.seqNext = t.seqNext ∧ t'.cmpArmed = t.cmpArmed ∧ t'.cmpValue = t.cmpValue ∧
      t'.irqPending = t.irqPending ∧ (t'.irqEn = false → t'.irq = false)

/-- 60_exceptions.md R95, 70_reset_and_hazards.md R118: where the issuers keep their duties, an OK response
of RUN_NEXT goes to the normal context, and only the interrupt context or reset clears `IRQ_PENDING`. -/
def Obligations.DutifulIssuersDispatchInNormalContext : Prop :=
  ∀ s t : State, dutiful (fetch s).1 = true → step s = .next t →
    (inputInstr (fetch s).1 = some .runNext → t.serving = some .normal) ∧
    (s.irqPending = true → t.irqPending = false →
      (fetch s).1 = .reset ∨ t.serving = some .interrupt)

/-! ### Time and order -/

/-- 40_time_compare.md R68 ([derived]): `BEFORE` is the upper half of the modular difference: irreflexive,
asymmetric except at exactly half the range, where it holds both ways. -/
def Obligations.BeforeIsTheUpperHalfOfTheDifference : Prop :=
  ∀ (w : Nat) (a b : Word), 1 ≤ w → w ≤ 32 → a.toNat < 2 ^ w → b.toNat < 2 ^ w →
    (before w a b = true ↔ 2 ^ (w - 1) ≤ (a.toNat + 2 ^ w - b.toNat) % 2 ^ w) ∧
    before w a a = false ∧
    ((a.toNat + 2 ^ w - b.toNat) % 2 ^ w = 2 ^ (w - 1) → before w a b = true ∧ before w b a = true) ∧
    (a ≠ b → (a.toNat + 2 ^ w - b.toNat) % 2 ^ w ≠ 2 ^ (w - 1) → before w b a = !before w a b)

/-- 40_time_compare.md R69, 70_reset_and_hazards.md R113, R114 ([derived]): a deadline `k` ticks ahead is
due for `k = 0` and for `k > 2^(TW-1)`; a deadline `k` ticks behind is due for `k < 2^(TW-1)`. -/
def Obligations.DueWindowIsHalfTheRing : Prop :=
  ∀ (w k : Nat) (v : Word), 1 ≤ w → w ≤ 32 → k < 2 ^ w →
    (isDue w v (trunc w (v + BitVec.ofNat 32 k)) = true ↔ k = 0 ∨ 2 ^ (w - 1) < k) ∧
    (isDue w (trunc w (v + BitVec.ofNat 32 k)) v = true ↔ k < 2 ^ (w - 1))

/-- 70_reset_and_hazards.md R112: inside the horizon a deadline is due exactly when it is at or before
`NOW`. -/
def Obligations.DueInsideTheHorizonMeansReached : Prop :=
  ∀ (s : State) (i : Nat), 2 ≤ s.timeWidth → s.timeWidth ≤ 32 → s.InHorizon → i ∈ s.live →
    (s.isDue (s.slot i).deadline = true ↔ sdiff s.timeWidth (s.slot i).deadline s.now ≤ 0)

/-- 60_exceptions.md R97 ([derived]): with `NOW = t` and a deadline `t + 1`, a command before the tick sees
it as not due, and a command after the tick sees it as due. -/
def Obligations.TickMakesTheNextDeadlineDue : Prop :=
  ∀ (s t : State), 2 ≤ s.timeWidth → s.timeWidth ≤ 32 → (fetch s).1 = .tick → step s = .next t →
    s.isDue (trunc s.timeWidth (s.now + 1)) = false ∧ t.isDue (trunc s.timeWidth (s.now + 1)) = true

/-- 40_time_compare.md R71: SELECT is the linear scan: none of nothing, and one more index replaces the best
exactly when there is none or it comes before it. So it is total, and its result is in the set. -/
def Obligations.SelectIsALinearScan : Prop :=
  ∀ s : State, s.select [] = none ∧
    (∀ xs i, s.select (xs ++ [i]) = match s.select xs with
      | none => some i
      | some b => if s.orderLt i b then some i else some b) ∧
    (∀ xs, s.select xs = none ↔ xs = []) ∧ (∀ xs b, s.select xs = some b → b ∈ xs)

/-- 40_time_compare.md R72 ([derived]): where the deadlines lie in the half range above a base and the
sequence numbers in the half range above another, the event order is by deadline, then by sequence
number, and SELECT returns a least event, whatever slots the events occupy. -/
def Obligations.SelectReturnsTheLeastEvent : Prop :=
  ∀ (s : State) (base seqBase : Word) (xs : List Nat), 1 ≤ s.timeWidth → s.timeWidth ≤ 32 → s.WidthInv →
    s.DeadlinesFrom base xs → s.SeqsFrom seqBase xs →
    (∀ i ∈ xs, ∀ j ∈ xs, s.orderLt i j = true ↔
      offset s.timeWidth base (s.slot i).deadline < offset s.timeWidth base (s.slot j).deadline ∨
      (offset s.timeWidth base (s.slot i).deadline = offset s.timeWidth base (s.slot j).deadline ∧
        offset 32 seqBase (s.slot i).seq < offset 32 seqBase (s.slot j).seq)) ∧
    (∀ b, s.select xs = some b → ∀ i ∈ xs, s.orderLt i b = false)

/-- 42_dispatch.md R86 ([derived]): of two latched events with equal deadlines RUN_NEXT does not return the
later scheduled one while the earlier is still latched. -/
def Obligations.EqualDeadlinesFireInScheduleOrder : Prop :=
  ∀ (s t : State) (base seqBase : Word) (i j : Nat), 1 ≤ s.timeWidth → s.timeWidth ≤ 32 → s.WidthInv →
    s.DeadlinesFrom base s.ready → s.SeqsFrom seqBase s.ready → i ∈ s.ready → j ∈ s.ready →
    (s.slot i).deadline = (s.slot j).deadline → sdiff 32 (s.slot i).seq (s.slot j).seq < 0 →
    exec .runNext s = .next t → j ∈ t.ready ∧ t.slot j = s.slot j

/-- 42_dispatch.md R86 ([derived]): two pending events with equal deadlines are latched by the same SERVICE
or by neither. -/
def Obligations.EqualDeadlinesAreLatchedTogether : Prop :=
  ∀ (s t : State) (i j : Nat), i ∈ s.pend → j ∈ s.pend → (s.slot i).deadline = (s.slot j).deadline →
    exec .service s = .next t → (i ∈ t.ready ↔ j ∈ t.ready) ∧ (i ∈ t.pend ↔ j ∈ t.pend)

/-! ### Invariants -/

/-- 00_scope.md R13 ([derived]): LIVE is the disjoint union of PEND and READY, and FREE its complement. -/
def Obligations.SlotSetsPartitionTheSlots : Prop :=
  ∀ s : State, s.live.length = s.pend.length + s.ready.length ∧
    s.nslot = s.live.length + s.freeSlots.length ∧
    (∀ i, i ∈ s.live ↔ i ∈ s.pend ∨ i ∈ s.ready) ∧ (∀ i, ¬ (i ∈ s.pend ∧ i ∈ s.ready)) ∧
    (∀ i, i ∈ s.freeSlots ↔ i < s.nslot ∧ i ∉ s.live)

/-- 10_state.md R22, R33, R18 ([derived]; the widths are the representation of log entry 4): every step of
every agent keeps the slot invariants, the timer invariant, the widths and the legal parameters. -/
def Obligations.EveryStepKeepsTheInvariant : Prop :=
  ∀ s t : State, s.Inv → step s = .next t → t.Inv

/-- 10_state.md R33: "the hardware timer is armed for min(deadlines of currently-pending events) or disarmed
when none are pending — verify after each mutation": every event-set command that answers OK, and
MAINTAIN, establishes it from any state whatever. -/
def Obligations.EveryMutationArmsTheTimer : Prop :=
  ∀ (i : Instr) (s t : State) (r : Response), (i.eventSet = true ∨ i = .maintain) →
    exec i s = .next t → t.response = some r → r.status = .ok → t.TimerInv

/-- 10_state.md R34 ([derived]): inside the horizon every step keeps "`IRQ_PENDING` is set or no pending
event is due": no due event is left without a pending interrupt. -/
def Obligations.NoDueEventIsLeftWithoutAnInterrupt : Prop :=
  ∀ s t : State, s.Inv → s.IrqInv → s.InHorizon → t.InHorizon → step s = .next t → t.IrqInv

/-- 10_state.md R34, 70_reset_and_hazards.md R112 ([derived]): in a run from the reset state of any legal
instance, under any interleaving of agents that stays inside the horizon, every state has the invariants
and leaves no due event without a pending interrupt. -/
def Obligations.RunsInsideTheHorizonMissNoEvent : Prop :=
  ∀ (p : Params) (ins : List Input) (k : Nat) (t : State), p.Legal →
    (∀ j, j ≤ k → ∀ u, core.run j { State.resetWith p with inputs := ins } = .next u →
      State.InHorizon u) →
    core.run k { State.resetWith p with inputs := ins } = .next t → State.Inv t ∧ State.IrqInv t

/-- 40_time_compare.md R74 ([derived]): where R33 held and the deadlines lie on an arc, SCHEDULE's full
recomputation gives the timer value of the conditional update: the new deadline if it is now the nearest,
the old value otherwise. -/
def Obligations.ScheduleReprogramsOnlyForANearerDeadline : Prop :=
  ∀ (s t : State) (d cb p base : Word), s.Inv → s.freeSlots ≠ [] →
    s.DeadlinesFrom base s.pend → offset s.timeWidth base (trunc s.timeWidth d) < 2 ^ (s.timeWidth - 1) →
    exec (.schedule d cb p) s = .next t → t.cmpArmed = true ∧ t.cmpValue =
      if s.cmpArmed = true ∧ before s.timeWidth (trunc s.timeWidth d) s.cmpValue = false
      then s.cmpValue else trunc s.timeWidth d

/-! ### Handles, cancellation and dispatch along runs -/

/-- 10_state.md R25 ([derived]): handles stay unique over every step that does not bring `SEQ_NEXT` back to a
live event's handle. -/
def Obligations.HandlesStayUnique : Prop :=
  ∀ s t : State, s.HandlesUnique → step s = .next t → t.HandleDead t.seqNext → t.HandlesUnique

/-- 42_dispatch.md R84, R85, 41_schedule_cancel.md R78 ([derived]): after CANCEL of a handle, and after
RUN_NEXT has returned it, no live event has it, so that a later CANCEL answers NOT_FOUND. -/
def Obligations.CancelledOrFiredHandleIsDead : Prop :=
  ∀ (s t : State) (h : Word), s.HandlesUnique →
    (exec (.cancel h) s = .next t ∨
      (exec .runNext s = .next t ∧ ∃ r, t.response = some r ∧ r.status = .ok ∧ r.res2 = h)) →
    t.HandleDead h ∧ exec (.cancel h) t = .next { t with response := some ⟨.notFound, 0, 0, 0, 0, 0⟩ }

/-- 42_dispatch.md R84, R85, 20_memory.md R47 ([derived]): once no live event has a handle, no later
RUN_NEXT returns it, whatever the interleaving, as long as no SCHEDULE assigns that value again. -/
def Obligations.DeadHandleNeverFires : Prop :=
  ∀ (s u t : State) (h : Word) (k : Nat) (r : Response), s.HandleDead h →
    (∀ j, j < k → ∀ v, core.run j s = .next v → State.seqNext v = h →
      ∀ d cb p, inputInstr (fetch v).1 ≠ some (.schedule d cb p)) →
    core.run k s = .next u → inputInstr (fetch u).1 = some .runNext → step u = .next t →
    t.response = some r → r.status = .ok → r.res2 ≠ h

/-- 41_schedule_cancel.md R79, 42_dispatch.md R84, 43_observe_control.md R89 ([derived]): after CANCEL_ALL no
live event has the parameter, COUNT_PARAM answers 0, and no RUN_NEXT returns the parameter, until a
SCHEDULE brings it again. -/
def Obligations.CancelledTagNeverFires : Prop :=
  ∀ (s s' u : State) (p : Word) (k : Nat), exec (.cancelAll p) s = .next s' →
    (∀ j, j < k → ∀ v, core.run j s' = .next v →
      ∀ d cb, inputInstr (fetch v).1 ≠ some (.schedule d cb p)) →
    core.run k s' = .next u →
    exec (.countParam p) u = .next { u with response := some ⟨.ok, 0, 0, 0, 0, 0⟩ } ∧
    (∀ t r, exec .runNext u = .next t → t.response = some r → r.status = .ok → r.res1 ≠ p)
end

