-- ==== Sys2Proof/Laws/State.lean ====
section
/-!
SUPPORT. The small lemmas of the state: one per field per update, reading a slot after each update of the
slot array, and the slot sets of 00_scope.md R13 as predicates on slots. Later proofs cite these and do
not unfold a record update.
-/
namespace Sys2Proof.Machine

/-! ### setSlot, freeSlot and raiseIrq, field by field -/

section SetSlot
variable (s : State) (i : Nat) (x : Slot)

@[simp] theorem setSlot_timeWidth : (s.setSlot i x).timeWidth = s.timeWidth := rfl
@[simp] theorem setSlot_rawWidth : (s.setSlot i x).rawWidth = s.rawWidth := rfl
@[simp] theorem setSlot_now : (s.setSlot i x).now = s.now := rfl
@[simp] theorem setSlot_slots : (s.setSlot i x).slots = s.slots.set i x := rfl
@[simp] theorem setSlot_seqNext : (s.setSlot i x).seqNext = s.seqNext := rfl
@[simp] theorem setSlot_cmpArmed : (s.setSlot i x).cmpArmed = s.cmpArmed := rfl
@[simp] theorem setSlot_cmpValue : (s.setSlot i x).cmpValue = s.cmpValue := rfl
@[simp] theorem setSlot_irqPending : (s.setSlot i x).irqPending = s.irqPending := rfl
@[simp] theorem setSlot_irqEn : (s.setSlot i x).irqEn = s.irqEn := rfl
@[simp] theorem setSlot_inputs : (s.setSlot i x).inputs = s.inputs := rfl
@[simp] theorem setSlot_serving : (s.setSlot i x).serving = s.serving := rfl
@[simp] theorem setSlot_response : (s.setSlot i x).response = s.response := rfl
@[simp] theorem setSlot_nslot : (s.setSlot i x).nslot = s.nslot := by simp [State.nslot]

@[simp] theorem freeSlot_timeWidth : (s.freeSlot i).timeWidth = s.timeWidth := rfl
@[simp] theorem freeSlot_rawWidth : (s.freeSlot i).rawWidth = s.rawWidth := rfl
@[simp] theorem freeSlot_now : (s.freeSlot i).now = s.now := rfl
@[simp] theorem freeSlot_slots : (s.freeSlot i).slots = s.slots.set i Slot.free := rfl
@[simp] theorem freeSlot_seqNext : (s.freeSlot i).seqNext = s.seqNext := rfl
@[simp] theorem freeSlot_cmpArmed : (s.freeSlot i).cmpArmed = s.cmpArmed := rfl
@[simp] theorem freeSlot_cmpValue : (s.freeSlot i).cmpValue = s.cmpValue := rfl
@[simp] theorem freeSlot_irqPending : (s.freeSlot i).irqPending = s.irqPending := rfl
@[simp] theorem freeSlot_irqEn : (s.freeSlot i).irqEn = s.irqEn := rfl
@[simp] theorem freeSlot_inputs : (s.freeSlot i).inputs = s.inputs := rfl
@[simp] theorem freeSlot_serving : (s.freeSlot i).serving = s.serving := rfl
@[simp] theorem freeSlot_response : (s.freeSlot i).response = s.response := rfl
@[simp] theorem freeSlot_nslot : (s.freeSlot i).nslot = s.nslot := setSlot_nslot s i _

@[simp] theorem raiseIrq_timeWidth : s.raiseIrq.timeWidth = s.timeWidth := rfl
@[simp] theorem raiseIrq_rawWidth : s.raiseIrq.rawWidth = s.rawWidth := rfl
@[simp] theorem raiseIrq_now : s.raiseIrq.now = s.now := rfl
@[simp] theorem raiseIrq_slots : s.raiseIrq.slots = s.slots := rfl
@[simp] theorem raiseIrq_seqNext : s.raiseIrq.seqNext = s.seqNext := rfl
@[simp] theorem raiseIrq_cmpArmed : s.raiseIrq.cmpArmed = s.cmpArmed := rfl
@[simp] theorem raiseIrq_cmpValue : s.raiseIrq.cmpValue = s.cmpValue := rfl
@[simp] theorem raiseIrq_irqPending : s.raiseIrq.irqPending = true := rfl
@[simp] theorem raiseIrq_irqEn : s.raiseIrq.irqEn = s.irqEn := rfl
@[simp] theorem raiseIrq_inputs : s.raiseIrq.inputs = s.inputs := rfl
@[simp] theorem raiseIrq_serving : s.raiseIrq.serving = s.serving := rfl
@[simp] theorem raiseIrq_response : s.raiseIrq.response = s.response := rfl

end SetSlot

/-! ### addEvent, freeTagged and latchDue, field by field -/

section Writes
variable (s : State) (f : Nat) (d cb p : Word)

@[simp] theorem addEvent_timeWidth : (addEvent s f d cb p).timeWidth = s.timeWidth := rfl
@[simp] theorem addEvent_rawWidth : (addEvent s f d cb p).rawWidth = s.rawWidth := rfl
@[simp] theorem addEvent_now : (addEvent s f d cb p).now = s.now := rfl
@[simp] theorem addEvent_slots :
    (addEvent s f d cb p).slots = s.slots.set f (newEvent s d cb p) := rfl
@[simp] theorem addEvent_seqNext : (addEvent s f d cb p).seqNext = s.seqNext + 1 := rfl
@[simp] theorem addEvent_cmpArmed : (addEvent s f d cb p).cmpArmed = s.cmpArmed := rfl
@[simp] theorem addEvent_cmpValue : (addEvent s f d cb p).cmpValue = s.cmpValue := rfl
@[simp] theorem addEvent_irqPending : (addEvent s f d cb p).irqPending = s.irqPending := rfl
@[simp] theorem addEvent_irqEn : (addEvent s f d cb p).irqEn = s.irqEn := rfl
@[simp] theorem addEvent_inputs : (addEvent s f d cb p).inputs = s.inputs := rfl
@[simp] theorem addEvent_serving : (addEvent s f d cb p).serving = s.serving := rfl
@[simp] theorem addEvent_nslot : (addEvent s f d cb p).nslot = s.nslot := by simp [State.nslot]

@[simp] theorem freeTagged_timeWidth : (freeTagged s p).timeWidth = s.timeWidth := rfl
@[simp] theorem freeTagged_rawWidth : (freeTagged s p).rawWidth = s.rawWidth := rfl
@[simp] theorem freeTagged_now : (freeTagged s p).now = s.now := rfl
@[simp] theorem freeTagged_slots :
    (freeTagged s p).slots = s.slots.map (fun x => if tagged p x then Slot.free else x) := rfl
@[simp] theorem freeTagged_seqNext : (freeTagged s p).seqNext = s.seqNext := rfl
@[simp] theorem freeTagged_cmpArmed : (freeTagged s p).cmpArmed = s.cmpArmed := rfl
@[simp] theorem freeTagged_cmpValue : (freeTagged s p).cmpValue = s.cmpValue := rfl
@[simp] theorem freeTagged_irqPending : (freeTagged s p).irqPending = s.irqPending := rfl
@[simp] theorem freeTagged_irqEn : (freeTagged s p).irqEn = s.irqEn := rfl
@[simp] theorem freeTagged_inputs : (freeTagged s p).inputs = s.inputs := rfl
@[simp] theorem freeTagged_serving : (freeTagged s p).serving = s.serving := rfl
@[simp] theorem freeTagged_nslot : (freeTagged s p).nslot = s.nslot := by simp [State.nslot]

@[simp] theorem latchDue_timeWidth : (latchDue s).timeWidth = s.timeWidth := rfl
@[simp] theorem latchDue_rawWidth : (latchDue s).rawWidth = s.rawWidth := rfl
@[simp] theorem latchDue_now : (latchDue s).now = s.now := rfl
@[simp] theorem latchDue_slots : (latchDue s).slots =
    s.slots.map (fun x => if newlyDue s x then { x with due := true } else x) := rfl
@[simp] theorem latchDue_seqNext : (latchDue s).seqNext = s.seqNext := rfl
@[simp] theorem latchDue_cmpArmed : (latchDue s).cmpArmed = s.cmpArmed := rfl
@[simp] theorem latchDue_cmpValue : (latchDue s).cmpValue = s.cmpValue := rfl
@[simp] theorem latchDue_irqPending : (latchDue s).irqPending = false := rfl
@[simp] theorem latchDue_irqEn : (latchDue s).irqEn = s.irqEn := rfl
@[simp] theorem latchDue_inputs : (latchDue s).inputs = s.inputs := rfl
@[simp] theorem latchDue_serving : (latchDue s).serving = s.serving := rfl
@[simp] theorem latchDue_nslot : (latchDue s).nslot = s.nslot := by simp [State.nslot]

end Writes

/-! ### ARM and the tick, the fields they leave -/

section Arm
variable (s : State)

@[simp] theorem arm_timeWidth : s.arm.timeWidth = s.timeWidth := by
  unfold State.arm; split <;> [rfl; (dsimp only; split <;> rfl)]
@[simp] theorem arm_rawWidth : s.arm.rawWidth = s.rawWidth := by
  unfold State.arm; split <;> [rfl; (dsimp only; split <;> rfl)]
@[simp] theorem arm_now : s.arm.now = s.now := by
  unfold State.arm; split <;> [rfl; (dsimp only; split <;> rfl)]
@[simp] theorem arm_slots : s.arm.slots = s.slots := by
  unfold State.arm; split <;> [rfl; (dsimp only; split <;> rfl)]
@[simp] theorem arm_seqNext : s.arm.seqNext = s.seqNext := by
  unfold State.arm; split <;> [rfl; (dsimp only; split <;> rfl)]
@[simp] theorem arm_irqEn : s.arm.irqEn = s.irqEn := by
  unfold State.arm; split <;> [rfl; (dsimp only; split <;> rfl)]
@[simp] theorem arm_inputs : s.arm.inputs = s.inputs := by
  unfold State.arm; split <;> [rfl; (dsimp only; split <;> rfl)]
@[simp] theorem arm_serving : s.arm.serving = s.serving := by
  unfold State.arm; split <;> [rfl; (dsimp only; split <;> rfl)]
@[simp] theorem arm_nslot : s.arm.nslot = s.nslot := by simp [State.nslot]

@[simp] theorem tick_timeWidth : (tick s).timeWidth = s.timeWidth := by unfold tick; dsimp only; split <;> rfl
@[simp] theorem tick_rawWidth : (tick s).rawWidth = s.rawWidth := by unfold tick; dsimp only; split <;> rfl
@[simp] theorem tick_now : (tick s).now = trunc s.timeWidth (s.now + 1) := by
  unfold tick; dsimp only; split <;> rfl
@[simp] theorem tick_slots : (tick s).slots = s.slots := by unfold tick; dsimp only; split <;> rfl
@[simp] theorem tick_seqNext : (tick s).seqNext = s.seqNext := by unfold tick; dsimp only; split <;> rfl
@[simp] theorem tick_cmpArmed : (tick s).cmpArmed = s.cmpArmed := by unfold tick; dsimp only; split <;> rfl
@[simp] theorem tick_cmpValue : (tick s).cmpValue = s.cmpValue := by unfold tick; dsimp only; split <;> rfl
@[simp] theorem tick_irqEn : (tick s).irqEn = s.irqEn := by unfold tick; dsimp only; split <;> rfl
@[simp] theorem tick_inputs : (tick s).inputs = s.inputs := by unfold tick; dsimp only; split <;> rfl
@[simp] theorem tick_serving : (tick s).serving = s.serving := by unfold tick; dsimp only; split <;> rfl
@[simp] theorem tick_response : (tick s).response = s.response := by unfold tick; dsimp only; split <;> rfl

/-- The compare match (R92): the one way a tick changes `IRQ_PENDING`. -/
theorem tick_irqPending : (tick s).irqPending =
    (s.irqPending || (s.cmpArmed && trunc s.timeWidth (s.now + 1) == s.cmpValue)) := by
  unfold tick
  dsimp only
  split <;> simp_all

end Arm

/-! ### Reading a slot -/

theorem slot_of_le {s : State} {i : Nat} (h : s.nslot ≤ i) : s.slot i = Slot.free :=
  List.getD_eq_default _ _ h

theorem slot_mem {s : State} {i : Nat} (h : i < s.nslot) : s.slot i ∈ s.slots := by
  rw [State.slot, List.getD_eq_getElem _ _ h]
  exact List.getElem_mem h

/-- A property of every slot, by index. -/
theorem forall_slots {s : State} {q : Slot → Prop} :
    (∀ x ∈ s.slots, q x) ↔ ∀ i, i < s.nslot → q (s.slot i) := by
  constructor
  · exact fun h i hi => h _ (slot_mem hi)
  · intro h x hx
    obtain ⟨i, hi, rfl⟩ := List.getElem_of_mem hx
    have := h i hi
    rwa [State.slot, List.getD_eq_getElem _ _ hi] at this

/-- Two states with equally many slots that agree at each index have the same slots. -/
theorem slots_ext {s t : State} (hn : t.nslot = s.nslot) (h : ∀ i, i < s.nslot → t.slot i = s.slot i) :
    t.slots = s.slots := by
  apply List.ext_getElem hn
  intro i h1 h2
  have := h i h2
  rwa [State.slot, State.slot, List.getD_eq_getElem _ _ h1, List.getD_eq_getElem _ _ h2] at this

theorem slot_congr {s t : State} (h : t.slots = s.slots) (i : Nat) : t.slot i = s.slot i := by
  simp [State.slot, h]

theorem slot_set {s : State} (i : Nat) (x : Slot) (j : Nat) {t : State} (ht : t.slots = s.slots.set i x) :
    t.slot j = if j = i ∧ i < s.nslot then x else s.slot j := by
  simp only [State.slot, ht, State.nslot, List.getD_eq_getElem?_getD, List.getElem?_set]
  by_cases hij : i = j
  · subst hij
    by_cases hi : i < s.slots.length <;> simp [hi]
  · simp [hij, Ne.symm hij]

theorem slot_map {s : State} (f : Slot → Slot) (hf : f Slot.free = Slot.free) (j : Nat) {t : State}
    (ht : t.slots = s.slots.map f) : t.slot j = f (s.slot j) := by
  simp only [State.slot, ht, List.getD_eq_getElem?_getD, List.getElem?_map]
  cases s.slots[j]? <;> simp [hf]

theorem slot_freeSlot (s : State) (i j : Nat) :
    (s.freeSlot i).slot j = if j = i then Slot.free else s.slot j := by
  rw [slot_set (s := s) i Slot.free j (freeSlot_slots s i)]
  by_cases hij : j = i
  · subst hij
    by_cases hj : j < s.nslot
    · simp [hj]
    · simp [hj, slot_of_le (Nat.le_of_not_lt hj)]
  · simp [hij]

theorem slot_addEvent (s : State) {f : Nat} (hf : f < s.nslot) (d cb p : Word) (j : Nat) :
    (addEvent s f d cb p).slot j = if j = f then newEvent s d cb p else s.slot j := by
  rw [slot_set (s := s) f _ j (addEvent_slots s f d cb p)]
  simp [hf]

theorem slot_freeTagged (s : State) (p : Word) (j : Nat) :
    (freeTagged s p).slot j = if tagged p (s.slot j) then Slot.free else s.slot j :=
  slot_map (fun x => if tagged p x then Slot.free else x) (by simp [tagged, Slot.free]) j
    (freeTagged_slots s p)

theorem slot_latchDue (s : State) (j : Nat) : (latchDue s).slot j =
    if newlyDue s (s.slot j) then { s.slot j with due := true } else s.slot j :=
  slot_map (fun x => if newlyDue s x then { x with due := true } else x)
    (by simp [newlyDue, Slot.free]) j (latchDue_slots s)

@[simp] theorem slot_arm (s : State) (j : Nat) : s.arm.slot j = s.slot j := slot_congr (arm_slots s) j

/-! ### The slot sets -/

theorem mem_indices {s : State} {q : Slot → Bool} {i : Nat} :
    i ∈ s.indices q ↔ i < s.nslot ∧ q (s.slot i) = true := by
  simp [State.indices]

/-- A set that no free slot belongs to is a property of the slot alone. -/
theorem mem_indices_of_not_free {s : State} {q : Slot → Bool} (hq : q Slot.free = false) {i : Nat} :
    i ∈ s.indices q ↔ q (s.slot i) = true := by
  rw [mem_indices]
  refine ⟨fun h => h.2, fun h => ⟨?_, h⟩⟩
  by_contra hi
  rw [slot_of_le (Nat.le_of_not_lt hi), hq] at h
  cases h

theorem mem_live {s : State} {i : Nat} : i ∈ s.live ↔ (s.slot i).valid = true :=
  mem_indices_of_not_free (q := fun x => x.valid) rfl

theorem mem_pend {s : State} {i : Nat} :
    i ∈ s.pend ↔ (s.slot i).valid = true ∧ (s.slot i).due = false := by
  rw [State.pend, mem_indices_of_not_free rfl]
  simp

theorem mem_ready {s : State} {i : Nat} :
    i ∈ s.ready ↔ (s.slot i).valid = true ∧ (s.slot i).due = true := by
  rw [State.ready, mem_indices_of_not_free rfl]
  simp

theorem mem_freeSlots {s : State} {i : Nat} :
    i ∈ s.freeSlots ↔ i < s.nslot ∧ (s.slot i).valid = false := by
  rw [State.freeSlots, mem_indices]
  simp

theorem lt_nslot_of_valid {s : State} {i : Nat} (h : (s.slot i).valid = true) : i < s.nslot := by
  by_contra hi
  rw [slot_of_le (Nat.le_of_not_lt hi)] at h
  cases h

/-- A set is the same in two states that agree on it at each index. -/
theorem indices_congr {s t : State} {q r : Slot → Bool} (hn : t.nslot = s.nslot)
    (h : ∀ i, i < s.nslot → q (t.slot i) = r (s.slot i)) : t.indices q = s.indices r := by
  simp only [State.indices, hn]
  apply List.filter_congr
  intro i hi
  exact h i (List.mem_range.1 hi)

theorem indices_of_slots {s t : State} (q : Slot → Bool) (h : t.slots = s.slots) :
    t.indices q = s.indices q :=
  indices_congr (by simp [State.nslot, h]) (fun i _ => by rw [slot_congr h])

theorem pend_of_slots {s t : State} (h : t.slots = s.slots) : t.pend = s.pend := indices_of_slots _ h
theorem live_of_slots {s t : State} (h : t.slots = s.slots) : t.live = s.live := indices_of_slots _ h
theorem ready_of_slots {s t : State} (h : t.slots = s.slots) : t.ready = s.ready := indices_of_slots _ h

/-- The lowest index with a property is in the set. -/
theorem head_mem_indices {s : State} {q : Slot → Bool} {f : Nat} (h : (s.indices q).head? = some f) :
    f ∈ s.indices q := List.mem_of_mem_head? h

/-- The lowest index with a property: nothing below it has the property. -/
theorem head_indices_least {s : State} {q : Slot → Bool} {f : Nat} (h : (s.indices q).head? = some f) :
    ∀ i, i < f → q (s.slot i) = false := by
  intro i hi
  obtain ⟨hf, -⟩ := mem_indices.1 (head_mem_indices h)
  by_contra hq
  have hmem : i ∈ s.indices q := mem_indices.2 ⟨by omega, by simpa using hq⟩
  have hs : (s.indices q).Pairwise (· < ·) := List.Pairwise.filter _ List.pairwise_lt_range
  cases hl : s.indices q with
  | nil => rw [hl] at hmem; cases hmem
  | cons a l =>
    rw [hl] at h hmem hs
    obtain rfl : a = f := by simpa using h
    rcases List.mem_cons.1 hmem with rfl | hm
    · omega
    · have := (List.pairwise_cons.1 hs).1 i hm
      omega

/-- The lowest index with a property, from its description. -/
theorem head_indices_of_least {s : State} {q : Slot → Bool} {f : Nat} (hf : f < s.nslot)
    (hq : q (s.slot f) = true) (hl : ∀ i, i < f → q (s.slot i) = false) :
    (s.indices q).head? = some f := by
  have hmem : f ∈ s.indices q := mem_indices.2 ⟨hf, hq⟩
  cases h : (s.indices q).head? with
  | none =>
    rw [List.head?_eq_none_iff] at h
    rw [h] at hmem
    cases hmem
  | some g =>
    have hg := mem_indices.1 (head_mem_indices h)
    have hg' := head_indices_least h
    rcases Nat.lt_trichotomy f g with hlt | rfl | hgt
    · rw [hg' f hlt] at hq
      cases hq
    · rfl
    · rw [hl g hgt] at hg
      cases hg.2

theorem indices_eq_nil {s : State} {q : Slot → Bool} (h : ∀ i, i < s.nslot → q (s.slot i) = false) :
    s.indices q = [] := by
  rw [List.eq_nil_iff_forall_not_mem]
  intro i hi
  obtain ⟨hlt, hq⟩ := mem_indices.1 hi
  rw [h i hlt] at hq
  cases hq

/-- A count of slots is at most `NSLOT` (R75). -/
theorem length_indices_le (s : State) (q : Slot → Bool) : (s.indices q).length ≤ s.nslot := by
  have := List.length_filter_le (fun i => q (s.slot i)) (List.range s.nslot)
  simpa [State.indices] using this

/-- So no count overflows its result word (R75). -/
theorem countWord_toNat {n : Nat} (h : n ≤ 256) : (countWord n).toNat = n := by
  simp only [countWord, BitVec.toNat_ofNat]
  omega

theorem filter_indices (s : State) (q r : Slot → Bool) :
    (s.indices q).filter (fun i => r (s.slot i)) = s.indices (fun x => q x && r x) := by
  simp [State.indices, List.filter_filter, Bool.and_comm]

theorem indices_ascending (s : State) (q : Slot → Bool) : (s.indices q).Pairwise (· < ·) :=
  List.Pairwise.filter _ List.pairwise_lt_range

@[simp] theorem slot_resetWith (p : Params) (i : Nat) : (State.resetWith p).slot i = Slot.free := by
  simp only [State.slot, State.resetWith, List.getD_eq_getElem?_getD, List.getElem?_replicate]
  split <;> rfl

end Sys2Proof.Machine
end

