-- ==== Sys2Proof/Laws/Words.lean ====
section
/-!
SUPPORT. What the comparison functions of 40_time_compare.md compute, over natural numbers: cutting to a
width, the signed difference, `BEFORE`, the due test, and the order on an arc shorter than half the ring
(R72's proof sketch).
-/
namespace Sys2Proof.Machine

theorem two_pow_dvd {w : Nat} (hw : w ≤ 32) : 2 ^ w ∣ 2 ^ 32 := Nat.pow_dvd_pow 2 hw

theorem two_pow_le {w : Nat} (hw : w ≤ 32) : 2 ^ w ≤ 2 ^ 32 := Nat.pow_le_pow_right (by decide) hw

theorem two_pow_half {w : Nat} (hw : 1 ≤ w) : 2 ^ w = 2 * 2 ^ (w - 1) := by
  obtain ⟨k, rfl⟩ : ∃ k, w = k + 1 := ⟨w - 1, by omega⟩
  simp [Nat.pow_succ, Nat.mul_comm]

theorem trunc_toNat {w : Nat} (hw : w ≤ 32) (v : Word) : (trunc w v).toNat = v.toNat % 2 ^ w := by
  have h1 : v.toNat % 2 ^ w < 2 ^ w := Nat.mod_lt _ (by positivity)
  have h2 := two_pow_le hw
  simp only [trunc, BitVec.toNat_ofNat]
  exact Nat.mod_eq_of_lt (by omega)

theorem trunc_lt {w : Nat} (hw : w ≤ 32) (v : Word) : (trunc w v).toNat < 2 ^ w := by
  rw [trunc_toNat hw]
  exact Nat.mod_lt _ (by positivity)

theorem trunc_of_lt {w : Nat} {v : Word} (hv : v.toNat < 2 ^ w) : trunc w v = v := by
  apply BitVec.eq_of_toNat_eq
  simp only [trunc, BitVec.toNat_ofNat, Nat.mod_eq_of_lt hv]
  exact Nat.mod_eq_of_lt v.isLt

/-- Subtraction of words, cut to a width, is subtraction of integers modulo that width. -/
theorem sub_toNat_emod {w : Nat} (hw : w ≤ 32) (a b : Word) :
    (((a - b).toNat % 2 ^ w : Nat) : Int) = ((a.toNat : Int) - b.toNat) % (2 ^ w : Nat) := by
  have hd : ((2 ^ w : Nat) : Int) ∣ ((2 ^ 32 : Nat) : Int) := Int.natCast_dvd_natCast.2 (two_pow_dvd hw)
  have hb := b.isLt
  have h : ((a - b).toNat : Int) = (((2 ^ 32 : Nat) : Int) + ((a.toNat : Int) - b.toNat)) % (2 ^ 32 : Nat) := by
    rw [BitVec.toNat_sub, Int.natCast_emod]
    congr 1
    omega
  rw [Int.natCast_emod, h, Int.emod_emod_of_dvd _ hd, Int.add_emod, Int.emod_eq_zero_of_dvd hd,
    Int.zero_add, Int.emod_emod_of_dvd _ (dvd_refl _)]

/-- `NOW + 1` cut to `TW` bits is addition modulo `2^TW` (R75). -/
theorem trunc_succ_toNat {w : Nat} (hw : w ≤ 32) (v : Word) :
    (trunc w (v + 1)).toNat = (v.toNat + 1) % 2 ^ w := by
  rw [trunc_toNat hw, BitVec.toNat_add]
  exact Nat.mod_mod_of_dvd _ (two_pow_dvd hw)

theorem sdiff_self (w : Nat) (a : Word) : sdiff w a a = 0 := by
  have : (0 : Nat) < 2 ^ (w - 1) := by positivity
  simp [sdiff, this]

/-- `BEFORE(a, b)` holds exactly when `(a - b) mod 2^W` is in the upper half (R68). -/
theorem before_iff_half {w : Nat} (hw : 1 ≤ w) (a b : Word) :
    before w a b = true ↔ 2 ^ (w - 1) ≤ (a - b).toNat % 2 ^ w := by
  have hlt : (a - b).toNat % 2 ^ w < 2 ^ w := Nat.mod_lt _ (by positivity)
  have hh := two_pow_half hw
  rw [before, decide_eq_true_iff, sdiff]
  generalize (a - b).toNat % 2 ^ w = d at *
  generalize 2 ^ (w - 1) = h at *
  generalize 2 ^ w = m at *
  split <;> omega

theorem isDue_eq_false_iff {w : Nat} (now d : Word) : isDue w now d = false ↔ before w now d = true := by
  simp [isDue]

/-- For two times of `W` bits the modular difference needs no sign. -/
theorem sub_toNat_mod {w : Nat} (hw : w ≤ 32) (a b : Word) (hb : b.toNat < 2 ^ w) :
    (a - b).toNat % 2 ^ w = (a.toNat + 2 ^ w - b.toNat) % 2 ^ w := by
  have h := sub_toNat_emod hw a b
  have h' : (((a.toNat + 2 ^ w - b.toNat) % 2 ^ w : Nat) : Int) =
      ((a.toNat : Int) - b.toNat) % (2 ^ w : Nat) := by
    rw [Int.natCast_emod, Int.natCast_sub (by omega)]
    push_cast
    rw [show ((a.toNat : Int) + 2 ^ w - b.toNat) = (a.toNat - b.toNat) + 2 ^ w by ring,
      Int.add_emod_right]
  rw [← h'] at h
  exact_mod_cast h

theorem add_sub_mod {x y m : Nat} (hx : x < m) (hy : y < m) :
    (x + m - y) % m = if y ≤ x then x - y else x + m - y := by
  split
  · rw [show x + m - y = (x - y) + m by omega, Nat.add_mod_right, Nat.mod_eq_of_lt (by omega)]
  · rw [Nat.mod_eq_of_lt (by omega)]

/-- Cutting the first time to `W` bits leaves the modular difference. -/
theorem trunc_sub_mod {w : Nat} (hw : w ≤ 32) (a b : Word) :
    (trunc w a - b).toNat % 2 ^ w = (a - b).toNat % 2 ^ w := by
  have e1 := sub_toNat_emod hw (trunc w a) b
  have e2 := sub_toNat_emod hw a b
  rw [trunc_toNat hw, Int.natCast_emod a.toNat, Int.emod_sub_emod, ← e2] at e1
  exact_mod_cast e1

/-- Cutting the second time to `W` bits leaves the modular difference. -/
theorem sub_trunc_mod {w : Nat} (hw : w ≤ 32) (a b : Word) :
    (a - trunc w b).toNat % 2 ^ w = (a - b).toNat % 2 ^ w := by
  have e1 := sub_toNat_emod hw a (trunc w b)
  have e2 := sub_toNat_emod hw a b
  rw [trunc_toNat hw, Int.natCast_emod b.toNat, Int.sub_emod_emod, ← e2] at e1
  exact_mod_cast e1

/-- The modular difference the other way round. -/
theorem sub_swap_mod {w : Nat} (hw : w ≤ 32) (a b : Word) : (b - a).toNat % 2 ^ w =
    if (a - b).toNat % 2 ^ w = 0 then 0 else 2 ^ w - (a - b).toNat % 2 ^ w := by
  have e1 := sub_toNat_emod hw a b
  have e2 := sub_toNat_emod hw b a
  have hp : (0 : Int) < (2 ^ w : Nat) := by positivity
  rw [show ((b.toNat : Int) - a.toNat) = -((a.toNat : Int) - b.toNat) by ring, Int.neg_emod] at e2
  have hb := Int.emod_lt_of_pos ((a.toNat : Int) - b.toNat) hp
  have hd : ((2 ^ w : Nat) : Int) ∣ (a.toNat : Int) - b.toNat ↔
      ((a.toNat : Int) - b.toNat) % (2 ^ w : Nat) = 0 := Int.dvd_iff_emod_eq_zero
  simp only [hd, Int.natAbs_natCast] at e2
  generalize ((a.toNat : Int) - b.toNat) % (2 ^ w : Nat) = z at *
  generalize (a - b).toNat % 2 ^ w = x at *
  generalize (b - a).toNat % 2 ^ w = y at *
  generalize 2 ^ w = m at *
  split at e2 <;> split <;> omega

/-- On an arc shorter than half the ring, `BEFORE` compares offsets from the base (R72). -/
theorem before_iff_offset_lt {w : Nat} (h1 : 1 ≤ w) (h2 : w ≤ 32) (base a b : Word)
    (ha : offset w base a < 2 ^ (w - 1)) (hb : offset w base b < 2 ^ (w - 1)) :
    before w a b = true ↔ offset w base a < offset w base b := by
  rw [before_iff_half h1]
  have hh := two_pow_half h1
  have e1 := sub_toNat_emod h2 a b
  have e2 := sub_toNat_emod h2 a base
  have e3 := sub_toNat_emod h2 b base
  have e4 : (((a - b).toNat % 2 ^ w : Nat) : Int) =
      ((offset w base a : Int) - offset w base b) % (2 ^ w : Nat) := by
    rw [e1, offset, offset, e2, e3, ← Int.sub_emod]
    congr 1
    omega
  generalize offset w base a = x at *
  generalize offset w base b = y at *
  generalize (a - b).toNat % 2 ^ w = d at *
  generalize 2 ^ (w - 1) = h at *
  generalize 2 ^ w = m at *
  by_cases hxy : x < y
  · have : ((x : Int) - y) % (m : Nat) = (x : Int) - y + m := by
      rw [← Int.add_emod_right]
      exact Int.emod_eq_of_lt (by omega) (by omega)
    omega
  · have : ((x : Int) - y) % (m : Nat) = (x : Int) - y := Int.emod_eq_of_lt (by omega) (by omega)
    omega

/-- Two times of `W` bits with the same offset are the same time. -/
theorem eq_of_offset_eq {w : Nat} (h2 : w ≤ 32) (base a b : Word) (ha : a.toNat < 2 ^ w)
    (hb : b.toNat < 2 ^ w) (h : offset w base a = offset w base b) : a = b := by
  apply BitVec.eq_of_toNat_eq
  have e2 := sub_toNat_emod h2 a base
  have e3 := sub_toNat_emod h2 b base
  have h' : ((offset w base a : Nat) : Int) = (offset w base b : Nat) := congrArg _ h
  rw [offset, offset, e2, e3] at h'
  have h4 : ((a.toNat : Int) % (2 ^ w : Nat)) = (b.toNat : Int) % (2 ^ w : Nat) := by
    have := Int.emod_add_cancel_right (m := (a.toNat : Int) - base.toNat) (n := (2 ^ w : Nat))
      (k := (b.toNat : Int) - base.toNat) (i := (base.toNat : Int))
    have h5 := this.2 h'
    simpa using h5
  rw [Int.emod_eq_of_lt (by omega) (by omega), Int.emod_eq_of_lt (by omega) (by omega)] at h4
  omega

end Sys2Proof.Machine
end

