-- ==== Sys2Proof/Laws/Select.lean ====
section
/-!
SUPPORT. SELECT (40_time_compare.md R71): it returns a member of its set, none exactly when the set is
empty, depends on the slots and `TW` alone, and on an arc shorter than half the ring returns an earliest
deadline (R72).
-/
namespace Sys2Proof.Machine

theorem orderLt_congr {s t : State} (h : t.slots = s.slots) (hw : t.timeWidth = s.timeWidth) :
    t.orderLt = s.orderLt := by
  funext i j
  simp [State.orderLt, hw, slot_congr h]

/-- SELECT reads the slots and `TW` only. -/
theorem select_congr {s t : State} (h : t.slots = s.slots) (hw : t.timeWidth = s.timeWidth) :
    t.select = s.select := by
  funext xs
  have : t.better = s.better := by
    funext b i
    simp only [State.better, orderLt_congr h hw]
  simp [State.select, this]

theorem nearest_congr {s t : State} (h : t.slots = s.slots) (hw : t.timeWidth = s.timeWidth) :
    t.nearest = s.nearest := by
  simp [State.nearest, select_congr h hw, pend_of_slots h, slot_congr h]

theorem better_congr {s t : State} (hw : t.timeWidth = s.timeWidth) {best : Option Nat} {x : Nat}
    (hb : ∀ j, best = some j → t.slot j = s.slot j) (hx : t.slot x = s.slot x) :
    t.better best x = s.better best x := by
  cases best with
  | none => rfl
  | some j =>
    have : t.orderLt x j = s.orderLt x j := by rw [State.orderLt, State.orderLt, hw, hx, hb j rfl]
    simp only [State.better, this]

theorem better_eq_some {s : State} {best : Option Nat} {x j : Nat} (h : s.better best x = some j) :
    j = x ∨ best = some j := by
  cases best with
  | none => exact .inl (by simpa [State.better] using h.symm)
  | some b =>
    simp only [State.better] at h
    split at h
    · exact .inl (by simpa using h.symm)
    · exact .inr h

theorem foldl_better_congr {s t : State} (hw : t.timeWidth = s.timeWidth) {xs : List Nat}
    {best : Option Nat} (hb : ∀ j, best = some j → t.slot j = s.slot j)
    (h : ∀ i ∈ xs, t.slot i = s.slot i) : xs.foldl t.better best = xs.foldl s.better best := by
  induction xs generalizing best with
  | nil => rw [List.foldl_nil, List.foldl_nil]
  | cons x xs ih =>
    have hx := h x (by simp)
    rw [List.foldl_cons, List.foldl_cons, better_congr hw hb hx]
    refine ih ?_ (fun i hi => h i (by simp [hi]))
    intro j hj
    rcases better_eq_some hj with rfl | hj
    · exact hx
    · exact hb j hj

/-- SELECT reads the slots of its set only. -/
theorem select_congr_on {s t : State} (hw : t.timeWidth = s.timeWidth) {xs : List Nat}
    (h : ∀ i ∈ xs, t.slot i = s.slot i) : t.select xs = s.select xs :=
  foldl_better_congr hw (by simp) h

/-- The nearest pending deadline reads the pending slots only. -/
theorem nearest_congr_on {s t : State} (hw : t.timeWidth = s.timeWidth) (hp : t.pend = s.pend)
    (h : ∀ i ∈ s.pend, t.slot i = s.slot i) (hs : ∀ xs b, s.select xs = some b → b ∈ xs) :
    t.nearest = s.nearest := by
  simp only [State.nearest, hp, select_congr_on hw h]
  cases hb : s.select s.pend with
  | none => rfl
  | some b => simp [h b (hs _ b hb)]

/-- The scan keeps a candidate once it has one, and every candidate is one of those seen. -/
theorem foldl_better_some (s : State) (xs : List Nat) (b : Nat) :
    ∃ c, xs.foldl s.better (some b) = some c ∧ (c = b ∨ c ∈ xs) := by
  induction xs generalizing b with
  | nil => exact ⟨b, rfl, .inl rfl⟩
  | cons x xs ih =>
    simp only [List.foldl_cons, State.better]
    split
    · obtain ⟨c, hc, h⟩ := ih x
      exact ⟨c, hc, by rcases h with rfl | h <;> simp [*]⟩
    · obtain ⟨c, hc, h⟩ := ih b
      exact ⟨c, hc, by rcases h with rfl | h <;> simp [*]⟩

theorem select_eq_none {s : State} {xs : List Nat} : s.select xs = none ↔ xs = [] := by
  cases xs with
  | nil => simp [State.select]
  | cons x xs =>
    obtain ⟨c, hc, -⟩ := foldl_better_some s xs x
    simp [State.select, State.better, hc]

theorem select_mem {s : State} {xs : List Nat} {b : Nat} (h : s.select xs = some b) : b ∈ xs := by
  cases xs with
  | nil => simp [State.select] at h
  | cons x xs =>
    obtain ⟨c, hc, hm⟩ := foldl_better_some s xs x
    simp only [State.select, List.foldl_cons, State.better] at h
    rw [hc] at h
    obtain rfl : c = b := by simpa using h
    rcases hm with rfl | hm <;> simp [*]

/-- On an arc, an event that comes before another has the smaller offset, or the same deadline. -/
theorem offset_le_of_orderLt {s : State} {base : Word} {i j : Nat} (h1 : 1 ≤ s.timeWidth)
    (h2 : s.timeWidth ≤ 32) (hi : offset s.timeWidth base (s.slot i).deadline < 2 ^ (s.timeWidth - 1))
    (hj : offset s.timeWidth base (s.slot j).deadline < 2 ^ (s.timeWidth - 1))
    (h : s.orderLt i j = true) : offset s.timeWidth base (s.slot i).deadline ≤
      offset s.timeWidth base (s.slot j).deadline := by
  simp only [State.orderLt, orderLt, Bool.or_eq_true, Bool.and_eq_true, beq_iff_eq] at h
  rcases h with h | ⟨h, -⟩
  · exact Nat.le_of_lt ((before_iff_offset_lt h1 h2 base _ _ hi hj).1 h)
  · rw [h]

theorem offset_le_of_not_orderLt {s : State} {base : Word} {i j : Nat} (h1 : 1 ≤ s.timeWidth)
    (h2 : s.timeWidth ≤ 32) (hi : offset s.timeWidth base (s.slot i).deadline < 2 ^ (s.timeWidth - 1))
    (hj : offset s.timeWidth base (s.slot j).deadline < 2 ^ (s.timeWidth - 1))
    (h : ¬ s.orderLt i j = true) : offset s.timeWidth base (s.slot j).deadline ≤
      offset s.timeWidth base (s.slot i).deadline := by
  by_contra hlt
  apply h
  have := (before_iff_offset_lt h1 h2 base _ _ hi hj).2 (by omega)
  simp [State.orderLt, orderLt, this]

/-- The scan's result has the least offset of all it has seen. -/
theorem foldl_better_least (s : State) (base : Word) (h1 : 1 ≤ s.timeWidth) (h2 : s.timeWidth ≤ 32)
    (xs : List Nat) (b c : Nat) (hb : offset s.timeWidth base (s.slot b).deadline < 2 ^ (s.timeWidth - 1))
    (hx : s.DeadlinesFrom base xs) (hc : xs.foldl s.better (some b) = some c) :
    ∀ i, i = b ∨ i ∈ xs → offset s.timeWidth base (s.slot c).deadline ≤
      offset s.timeWidth base (s.slot i).deadline := by
  induction xs generalizing b with
  | nil =>
    obtain rfl : b = c := by simpa using hc
    intro i hi
    rcases hi with rfl | hi
    · exact Nat.le_refl _
    · cases hi
  | cons x xs ih =>
    have hxx := hx x (by simp)
    have hxs : s.DeadlinesFrom base xs := fun i hi => hx i (by simp [hi])
    rw [List.foldl_cons] at hc
    by_cases ho : s.orderLt x b = true
    · simp only [State.better, ho, if_true] at hc
      have hle := offset_le_of_orderLt h1 h2 hxx hb ho
      have hall := ih x hxx hxs hc
      rintro i (rfl | hi)
      · exact Nat.le_trans (hall x (.inl rfl)) hle
      · rcases List.mem_cons.1 hi with rfl | hi
        · exact hall _ (.inl rfl)
        · exact hall i (.inr hi)
    · simp only [State.better, ho] at hc
      have hle := offset_le_of_not_orderLt h1 h2 hxx hb ho
      have hall := ih b hb hxs hc
      rintro i (rfl | hi)
      · exact hall _ (.inl rfl)
      · rcases List.mem_cons.1 hi with rfl | hi
        · exact Nat.le_trans (hall b (.inl rfl)) hle
        · exact hall i (.inr hi)

/-- On an arc, SELECT returns an event with an earliest deadline, whatever the sequence numbers. -/
theorem select_deadline_least {s : State} (base : Word) (h1 : 1 ≤ s.timeWidth) (h2 : s.timeWidth ≤ 32)
    {xs : List Nat} (hx : s.DeadlinesFrom base xs) {c : Nat} (hc : s.select xs = some c) :
    ∀ i ∈ xs, offset s.timeWidth base (s.slot c).deadline ≤
      offset s.timeWidth base (s.slot i).deadline := by
  cases xs with
  | nil => intro i hi; cases hi
  | cons x xs =>
    simp only [State.select, List.foldl_cons, State.better] at hc
    intro i hi
    exact foldl_better_least s base h1 h2 xs x c (hx x (by simp)) (fun j hj => hx j (by simp [hj])) hc i
      (List.mem_cons.1 hi)

end Sys2Proof.Machine
end

