-- ==== Sys2Proof/Laws/Arm.lean ====
section
/-!
SUPPORT. ARM (40_time_compare.md R73) said once: what it leaves in the timer and in `IRQ_PENDING`, and
that it establishes the timer invariant of 10_state.md R33 from any state.
-/
namespace Sys2Proof.Machine

theorem nearest_eq_none {s : State} : s.nearest = none ↔ s.pend = [] := by
  simp [State.nearest, select_eq_none]

/-- `CMP_ARMED`, `CMP_VALUE` and `IRQ_PENDING` after ARM, by the nearest pending deadline before it. -/
theorem arm_timer (s : State) :
    (s.nearest = none ∧ s.arm.cmpArmed = false ∧ s.arm.cmpValue = s.cmpValue ∧
      s.arm.irqPending = s.irqPending) ∨
    (∃ d, s.nearest = some d ∧ s.arm.cmpArmed = true ∧ s.arm.cmpValue = d ∧
      s.arm.irqPending = (s.irqPending || s.isDue d)) := by
  simp only [State.nearest, State.arm]
  cases h : s.select s.pend with
  | none => simp
  | some b =>
    right
    refine ⟨_, rfl, ?_⟩
    dsimp only
    split <;> simp_all

/-- ARM reads the slots, `TW` and `NOW` and leaves them, so its result is a property of the state after
it. -/
theorem arm_programmed (s : State) : s.arm.Programmed s.cmpValue s.irqPending := by
  have hn : s.arm.nearest = s.nearest := nearest_congr (arm_slots s) (arm_timeWidth s)
  rcases arm_timer s with ⟨h, h'⟩ | ⟨d, h, h'⟩
  · simpa only [State.Programmed, hn, h] using h'
  · simpa only [State.Programmed, hn, h, State.isDue, arm_timeWidth, arm_now] using h'

/-- What ARM leaves depends on the slots, `TW`, `NOW` and the timer's fields alone. -/
theorem programmed_congr {s t : State} {c : Word} {p : Bool} (hs : t.slots = s.slots)
    (hw : t.timeWidth = s.timeWidth) (hn : t.now = s.now) (ha : t.cmpArmed = s.cmpArmed)
    (hc : t.cmpValue = s.cmpValue) (hp : t.irqPending = s.irqPending) (h : s.Programmed c p) :
    t.Programmed c p := by
  simp only [State.Programmed, nearest_congr hs hw, State.isDue, hw, hn, ha, hc, hp] at h ⊢
  exact h

theorem timerInv_of_programmed {t : State} {c : Word} {p : Bool} (h : t.Programmed c p) :
    t.TimerInv := by
  unfold State.Programmed at h
  cases hn : t.nearest with
  | none =>
    rw [hn] at h
    exact .inl ⟨h.1, nearest_eq_none.1 hn⟩
  | some d =>
    rw [hn] at h
    refine .inr ⟨h.1, ?_, by rw [hn, h.2.1]⟩
    intro hp
    rw [nearest_eq_none.2 hp] at hn
    cases hn

/-- ARM's `IRQ_PENDING` never falls (R27). -/
theorem irqPending_of_programmed {t : State} {c : Word} (h : t.Programmed c true) :
    t.irqPending = true := by
  unfold State.Programmed at h
  cases hn : t.nearest <;> rw [hn] at h <;> simp [h.2.2]

/-- Where the timer invariant holds already, ARM leaves `CMP_ARMED` and `CMP_VALUE` (R80). -/
theorem programmed_keeps_timer {s t : State} {p : Bool} (hi : s.TimerInv) (hn : t.nearest = s.nearest)
    (h : t.Programmed s.cmpValue p) : t.cmpArmed = s.cmpArmed ∧ t.cmpValue = s.cmpValue := by
  unfold State.Programmed at h
  rw [hn] at h
  rcases hi with ⟨ha, hp⟩ | ⟨ha, hp, hc⟩
  · rw [nearest_eq_none.2 hp] at h
    exact ⟨h.1.trans ha.symm, h.2.1⟩
  · rw [hc] at h
    exact ⟨h.1.trans ha.symm, h.2.1⟩

end Sys2Proof.Machine
end

