-- ==== Sys2Proof/Laws/Decode.lean ====
section
/-!
SUPPORT. The command word as numbers (30_encoding.md R52) and the cases of the decoder said once (R57,
R61).
-/
namespace Sys2Proof

theorem opcField_toNat (cmd : Word) : (opcField cmd).toNat = cmd.toNat % 256 := by
  simp [opcField, BitVec.extractLsb'_toNat]

theorem slotField_toNat (cmd : Word) : (slotField cmd).toNat = cmd.toNat / 2 ^ 8 % 256 := by
  simp [slotField, BitVec.extractLsb'_toNat, Nat.shiftRight_eq_div_pow]

theorem ctrlField_toNat (cmd : Word) : (ctrlField cmd).toNat = cmd.toNat / 2 ^ 16 % 256 := by
  simp [ctrlField, BitVec.extractLsb'_toNat, Nat.shiftRight_eq_div_pow]

theorem rsvdField_toNat (cmd : Word) : (rsvdField cmd).toNat = cmd.toNat / 2 ^ 24 := by
  have := cmd.isLt
  simp only [rsvdField, BitVec.extractLsb'_toNat, Nat.shiftRight_eq_div_pow]
  omega

theorem ctrlUpper_toNat (v : BitVec 8) : (v.extractLsb' 1 7).toNat = v.toNat / 2 := by
  have := v.isLt
  simp only [BitVec.extractLsb'_toNat, Nat.shiftRight_eq_div_pow]
  omega

/-- READ_SLOT's command word as a number. -/
theorem readSlotWord_toNat (k : BitVec 8) : (encode (.readSlot k)).cmd.toNat = 9 + 256 * k.toNat := by
  have h : ∀ v : BitVec 8, (encode (.readSlot v)).cmd.toNat = 9 + 256 * v.toNat := by decide
  exact h k

/-- WRITE_CTRL's command word as a number. -/
theorem writeCtrlWord_toNat (c : BitVec 8) : (encode (.writeCtrl c)).cmd.toNat = 11 + 65536 * c.toNat := by
  have h : ∀ v : BitVec 8, (encode (.writeCtrl v)).cmd.toNat = 11 + 65536 * v.toNat := by decide
  exact h c

/-- The legal command words as numbers: the opcode, its one field, and zeros (R57, R61). -/
abbrev legalWord (n : Nat) : Prop :=
  (1 ≤ n % 256 ∧ n % 256 ≤ 11) ∧ n / 2 ^ 24 = 0 ∧ (n / 2 ^ 8 % 256 = 0 ∨ n % 256 = 9) ∧
    (n / 2 ^ 16 % 256 = 0 ∨ n % 256 = 11) ∧ (n % 256 = 11 → n / 2 ^ 17 % 128 = 0)

/-- The decoder's result on a legal word is that of the opcode (R61). -/
theorem decode_of_legal {r : Request} (h : legalWord r.cmd.toNat) : decode r = dispatchOpcode r := by
  obtain ⟨⟨h1, h2⟩, h3, h4, h5, h6⟩ := h
  have ho := opcField_toNat r.cmd
  have hs := slotField_toNat r.cmd
  have hc := ctrlField_toNat r.cmd
  have hr := rsvdField_toNat r.cmd
  have hu := ctrlUpper_toNat (ctrlField r.cmd)
  have k1 : ¬ rsvdField r.cmd ≠ 0 := by
    exact not_not.2 (BitVec.eq_of_toNat_eq (hr.trans h3))
  have k2 : ¬ ¬ (1 ≤ (opcField r.cmd).toNat ∧ (opcField r.cmd).toNat ≤ 0x0B) := by omega
  have k3 : ¬ (slotField r.cmd ≠ 0 ∧ opcField r.cmd ≠ 0x09) := by
    rintro ⟨a, b⟩
    rcases h4 with h | h
    · exact a (BitVec.eq_of_toNat_eq (hs.trans h))
    · exact b (BitVec.eq_of_toNat_eq (ho.trans h))
  have k4 : ¬ (ctrlField r.cmd ≠ 0 ∧ opcField r.cmd ≠ 0x0B) := by
    rintro ⟨a, b⟩
    rcases h5 with h | h
    · exact a (BitVec.eq_of_toNat_eq (hc.trans h))
    · exact b (BitVec.eq_of_toNat_eq (ho.trans h))
  have k5 : ¬ (opcField r.cmd = 0x0B ∧ (ctrlField r.cmd).extractLsb' 1 7 ≠ 0) := by
    rintro ⟨a, b⟩
    apply b
    apply BitVec.eq_of_toNat_eq
    have : (opcField r.cmd).toNat = 11 := by rw [a]; rfl
    have := h6 (by omega)
    rw [hu, hc]
    simp only [BitVec.ofNat_eq_ofNat, BitVec.toNat_ofNat]
    omega
  simp only [decode]
  rw [if_neg k1, if_neg k2, if_neg k3, if_neg k4, if_neg k5]

/-- The same for a word written out: whether it is legal does not depend on the operand words. -/
theorem decode_word {cmd : Word} (h : legalWord cmd.toNat) (a0 a1 a2 : Word) :
    decode ⟨cmd, a0, a1, a2⟩ = dispatchOpcode ⟨cmd, a0, a1, a2⟩ := decode_of_legal h

/-- The decoder refuses every other word (R61). -/
theorem legal_of_decode {r : Request} {i : Instr} (h : decode r = .ok i) : legalWord r.cmd.toNat := by
  have ho := opcField_toNat r.cmd
  have hs := slotField_toNat r.cmd
  have hc := ctrlField_toNat r.cmd
  have hr := rsvdField_toNat r.cmd
  have hu := ctrlUpper_toNat (ctrlField r.cmd)
  simp only [decode] at h
  split at h
  · cases h
  rename_i k1
  split at h
  · cases h
  rename_i k2
  split at h
  · cases h
  rename_i k3
  split at h
  · cases h
  rename_i k4
  split at h
  · cases h
  rename_i k5
  have e1 : ∀ {v : BitVec 8}, v = 0 → v.toNat = 0 := by rintro _ rfl; rfl
  refine ⟨by omega, ?_, ?_, ?_, ?_⟩
  · rw [← hr]; exact e1 (not_not.1 k1)
  · rw [← hs, ← ho]
    by_cases hz : slotField r.cmd = 0
    · exact .inl (e1 hz)
    · right
      have : opcField r.cmd = 0x09 := by_contra fun hn => k3 ⟨hz, hn⟩
      rw [this]; rfl
  · rw [← hc, ← ho]
    by_cases hz : ctrlField r.cmd = 0
    · exact .inl (e1 hz)
    · right
      have : opcField r.cmd = 0x0B := by_contra fun hn => k4 ⟨hz, hn⟩
      rw [this]; rfl
  · intro h11
    have h0 : opcField r.cmd = 0x0B := BitVec.eq_of_toNat_eq (ho.trans h11)
    have h7 : (ctrlField r.cmd).extractLsb' 1 7 = 0 := by_contra fun hn => k5 ⟨h0, hn⟩
    rw [h7] at hu
    have : (0 : BitVec 7).toNat = 0 := rfl
    omega

/-- The cases of the decoder: the command word of the row, with the operands of R53. -/
inductive DecodeCase (r : Request) : Instr → Prop
  | schedule : r.cmd.toNat = 1 → DecodeCase r (.schedule r.arg0 r.arg1 r.arg2)
  | cancel : r.cmd.toNat = 2 → DecodeCase r (.cancel r.arg0)
  | cancelAll : r.cmd.toNat = 3 → DecodeCase r (.cancelAll r.arg0)
  | maintain : r.cmd.toNat = 4 → DecodeCase r .maintain
  | service : r.cmd.toNat = 5 → DecodeCase r .service
  | runNext : r.cmd.toNat = 6 → DecodeCase r .runNext
  | readTime : r.cmd.toNat = 7 → DecodeCase r .readTime
  | readStatus : r.cmd.toNat = 8 → DecodeCase r .readStatus
  | readSlot (k : BitVec 8) : r.cmd.toNat = 9 + 256 * k.toNat → DecodeCase r (.readSlot k)
  | countParam : r.cmd.toNat = 10 → DecodeCase r (.countParam r.arg0)
  | writeCtrl (c : BitVec 8) : c.toNat ≤ 1 → r.cmd.toNat = 11 + 65536 * c.toNat →
      DecodeCase r (.writeCtrl c)

/-- A legal word decodes to the instruction of its row. -/
theorem dispatch_case {r : Request} (h : legalWord r.cmd.toNat) :
    ∃ i, dispatchOpcode r = .ok i ∧ DecodeCase r i := by
  obtain ⟨⟨h1, h2⟩, h3, h4, h5, h6⟩ := h
  have hlt := r.cmd.isLt
  have ho := opcField_toNat r.cmd
  have hs := slotField_toNat r.cmd
  have hc := ctrlField_toNat r.cmd
  have hz : r.cmd.toNat % 256 ≠ 9 → r.cmd.toNat % 256 ≠ 11 → r.cmd.toNat = r.cmd.toNat % 256 := by omega
  unfold dispatchOpcode
  rw [ho]
  obtain ⟨n, hn⟩ : ∃ n, r.cmd.toNat % 256 = n := ⟨_, rfl⟩
  rw [hn] at h1 h2 ⊢
  interval_cases n
  · exact ⟨_, rfl, .schedule (by omega)⟩
  · exact ⟨_, rfl, .cancel (by omega)⟩
  · exact ⟨_, rfl, .cancelAll (by omega)⟩
  · exact ⟨_, rfl, .maintain (by omega)⟩
  · exact ⟨_, rfl, .service (by omega)⟩
  · exact ⟨_, rfl, .runNext (by omega)⟩
  · exact ⟨_, rfl, .readTime (by omega)⟩
  · exact ⟨_, rfl, .readStatus (by omega)⟩
  · exact ⟨_, rfl, .readSlot _ (by omega)⟩
  · exact ⟨_, rfl, .countParam (by omega)⟩
  · exact ⟨_, rfl, .writeCtrl _ (by omega) (by omega)⟩

/-- The inversion of the decoder. -/
theorem decode_inv {r : Request} {i : Instr} (h : decode r = .ok i) : DecodeCase r i := by
  have hl := legal_of_decode h
  obtain ⟨j, hj, hc⟩ := dispatch_case hl
  rw [decode_of_legal hl, hj] at h
  cases h
  exact hc

end Sys2Proof
end

