-- ==== Sys2Proof/Laws/Exec.lean ====
section
/-!
SUPPORT. What one command and one step can do, said once: the cases of `exec` and of `step`. Every claim
about all commands or all steps is a case analysis over these.
-/
namespace Sys2Proof.Machine

/-- The state a failing command leaves: the response and nothing else (00_scope.md R12). -/
def State.failed (s : State) (code : Status) : State := { s with response := some ⟨code, 0, 0, 0, 0, 0⟩ }

/-- The state with this OK response on the port. -/
def State.answered (s : State) (r0 r1 r2 r3 r4 : Word) : State :=
  { s with response := some ⟨.ok, r0, r1, r2, r3, r4⟩ }

section Answered
variable (s : State) (code : Status) (r0 r1 r2 r3 r4 : Word)

@[simp] theorem failed_timeWidth : (s.failed code).timeWidth = s.timeWidth := rfl
@[simp] theorem failed_rawWidth : (s.failed code).rawWidth = s.rawWidth := rfl
@[simp] theorem failed_now : (s.failed code).now = s.now := rfl
@[simp] theorem failed_slots : (s.failed code).slots = s.slots := rfl
@[simp] theorem failed_seqNext : (s.failed code).seqNext = s.seqNext := rfl
@[simp] theorem failed_cmpArmed : (s.failed code).cmpArmed = s.cmpArmed := rfl
@[simp] theorem failed_cmpValue : (s.failed code).cmpValue = s.cmpValue := rfl
@[simp] theorem failed_irqPending : (s.failed code).irqPending = s.irqPending := rfl
@[simp] theorem failed_irqEn : (s.failed code).irqEn = s.irqEn := rfl
@[simp] theorem failed_inputs : (s.failed code).inputs = s.inputs := rfl
@[simp] theorem failed_serving : (s.failed code).serving = s.serving := rfl
@[simp] theorem failed_response : (s.failed code).response = some ⟨code, 0, 0, 0, 0, 0⟩ := rfl

@[simp] theorem answered_timeWidth : (s.answered r0 r1 r2 r3 r4).timeWidth = s.timeWidth := rfl
@[simp] theorem answered_rawWidth : (s.answered r0 r1 r2 r3 r4).rawWidth = s.rawWidth := rfl
@[simp] theorem answered_now : (s.answered r0 r1 r2 r3 r4).now = s.now := rfl
@[simp] theorem answered_slots : (s.answered r0 r1 r2 r3 r4).slots = s.slots := rfl
@[simp] theorem answered_seqNext : (s.answered r0 r1 r2 r3 r4).seqNext = s.seqNext := rfl
@[simp] theorem answered_cmpArmed : (s.answered r0 r1 r2 r3 r4).cmpArmed = s.cmpArmed := rfl
@[simp] theorem answered_cmpValue : (s.answered r0 r1 r2 r3 r4).cmpValue = s.cmpValue := rfl
@[simp] theorem answered_irqPending : (s.answered r0 r1 r2 r3 r4).irqPending = s.irqPending := rfl
@[simp] theorem answered_irqEn : (s.answered r0 r1 r2 r3 r4).irqEn = s.irqEn := rfl
@[simp] theorem answered_inputs : (s.answered r0 r1 r2 r3 r4).inputs = s.inputs := rfl
@[simp] theorem answered_serving : (s.answered r0 r1 r2 r3 r4).serving = s.serving := rfl
@[simp] theorem answered_response :
    (s.answered r0 r1 r2 r3 r4).response = some ⟨.ok, r0, r1, r2, r3, r4⟩ := rfl

end Answered

/-- The cases of one command. -/
inductive ExecCase (s : State) : Instr → State → Prop
  | capacityExceeded (d cb p : Word) : s.freeSlots = [] →
      ExecCase s (.schedule d cb p) (s.failed .capacityExceeded)
  | scheduled (d cb p : Word) (f : Nat) : s.freeSlots.head? = some f →
      ExecCase s (.schedule d cb p) ((addEvent s f d cb p).arm.answered s.seqNext 0 0 0 0)
  | notFound (h : Word) : holder s h = none → ExecCase s (.cancel h) (s.failed .notFound)
  | cancelled (h : Word) (k : Nat) : holder s h = some k →
      ExecCase s (.cancel h) ((s.freeSlot k).arm.answered 0 0 0 0 0)
  | cancelledAll (p : Word) : ExecCase s (.cancelAll p)
      ((freeTagged s p).arm.answered (countWord (s.indices (tagged p)).length) 0 0 0 0)
  | maintained : ExecCase s .maintain (s.arm.answered 0 0 0 0 0)
  | serviced : ExecCase s .service
      ((latchDue s).arm.answered (countWord (s.indices (newlyDue s)).length) 0 0 0 0)
  | noneDue : s.ready = [] → ExecCase s .runNext (s.failed .noneDue)
  | popped (b : Nat) : s.select s.ready = some b →
      ExecCase s .runNext ((s.freeSlot b).arm.answered (s.slot b).callback (s.slot b).param
        (s.slot b).seq (s.slot b).deadline (countWord b))
  | time : ExecCase s .readTime (s.answered s.now s.raw 0 0 0)
  | status : ExecCase s .readStatus (s.answered (statusFlags s.irq s.cmpArmed s.irqPending s.irqEn)
      s.cmpValue (countWord s.live.length) (countWord s.ready.length) s.seqNext)
  | badSlot (i : BitVec 8) : s.nslot ≤ i.toNat → ExecCase s (.readSlot i) (s.failed .badSlot)
  | slot (i : BitVec 8) : i.toNat < s.nslot → ExecCase s (.readSlot i)
      (s.answered (slotFlags (s.slot i.toNat).due (s.slot i.toNat).valid) (s.slot i.toNat).deadline
        (s.slot i.toNat).callback (s.slot i.toNat).param (s.slot i.toNat).seq)
  | counted (p : Word) : ExecCase s (.countParam p)
      (s.answered (countWord (s.indices (tagged p)).length) 0 0 0 0)
  | controlled (c : BitVec 8) : ExecCase s (.writeCtrl c)
      (State.answered { s with irqEn := c.getLsbD 0 } 0 0 0 0 0)

/-- Every command answers a next state, by one of these cases. -/
theorem exec_case (i : Instr) (s : State) : ∃ t, exec i s = .next t ∧ ExecCase s i t := by
  cases i with
  | schedule d cb p =>
    simp only [exec, execSchedule]
    cases h : s.freeSlots.head? with
    | none => exact ⟨_, rfl, .capacityExceeded d cb p (by simpa using h)⟩
    | some f => exact ⟨_, rfl, .scheduled d cb p f h⟩
  | cancel h =>
    simp only [exec, execCancel]
    cases hk : holder s h with
    | none => exact ⟨_, rfl, .notFound h hk⟩
    | some k => exact ⟨_, rfl, .cancelled h k hk⟩
  | cancelAll p => exact ⟨_, rfl, .cancelledAll p⟩
  | maintain => exact ⟨_, rfl, .maintained⟩
  | service => exact ⟨_, rfl, .serviced⟩
  | runNext =>
    simp only [exec, execRunNext]
    cases h : s.select s.ready with
    | none => exact ⟨_, rfl, .noneDue (select_eq_none.1 h)⟩
    | some b => exact ⟨_, rfl, .popped b h⟩
  | readTime => exact ⟨_, rfl, .time⟩
  | readStatus => exact ⟨_, rfl, .status⟩
  | readSlot i =>
    simp only [exec, execReadSlot]
    split
    · exact ⟨_, rfl, .slot i (by assumption)⟩
    · exact ⟨_, rfl, .badSlot i (by omega)⟩
  | countParam p => exact ⟨_, rfl, .counted p⟩
  | writeCtrl c => exact ⟨_, rfl, .controlled c⟩

/-- The inversion of one command. -/
theorem exec_inv {i : Instr} {s t : State} (h : exec i s = .next t) : ExecCase s i t := by
  obtain ⟨u, hu, hc⟩ := exec_case i s
  rw [hu] at h
  cases h
  exact hc

/-- The cases of one step, from the state after the fetch. -/
theorem step_cases {s t : State} (h : step s = .next t) :
    ((fetch s).1 = .tick ∧ t = tick (fetch s).2) ∨
    ((fetch s).1 = .reset ∧ t = applyReset (fetch s).2) ∨
    (∃ who r e, (fetch s).1 = .command who r ∧ decode r = .error e ∧
      t = (fetch s).2.failed .illegalCommand) ∨
    (∃ who r i, (fetch s).1 = .command who r ∧ decode r = .ok i ∧ exec i (fetch s).2 = .next t) := by
  unfold step at h
  rcases hf : fetch s with ⟨x, u⟩
  rw [hf] at h
  cases x with
  | tick =>
    cases h
    exact .inl ⟨rfl, rfl⟩
  | reset =>
    cases h
    exact .inr (.inl ⟨rfl, rfl⟩)
  | command who r =>
    dsimp only at h
    cases hd : decode r with
    | error e =>
      rw [hd] at h
      cases h
      exact .inr (.inr (.inl ⟨who, r, e, rfl, hd, rfl⟩))
    | ok i =>
      rw [hd] at h
      exact .inr (.inr (.inr ⟨who, r, i, rfl, hd, h⟩))

section Fetch
variable (s : State)

@[simp] theorem fetch_timeWidth : (fetch s).2.timeWidth = s.timeWidth := by unfold fetch; split <;> rfl
@[simp] theorem fetch_rawWidth : (fetch s).2.rawWidth = s.rawWidth := by unfold fetch; split <;> rfl
@[simp] theorem fetch_now : (fetch s).2.now = s.now := by unfold fetch; split <;> rfl
@[simp] theorem fetch_slots : (fetch s).2.slots = s.slots := by unfold fetch; split <;> rfl
@[simp] theorem fetch_seqNext : (fetch s).2.seqNext = s.seqNext := by unfold fetch; split <;> rfl
@[simp] theorem fetch_cmpArmed : (fetch s).2.cmpArmed = s.cmpArmed := by unfold fetch; split <;> rfl
@[simp] theorem fetch_cmpValue : (fetch s).2.cmpValue = s.cmpValue := by unfold fetch; split <;> rfl
@[simp] theorem fetch_irqPending : (fetch s).2.irqPending = s.irqPending := by
  unfold fetch; split <;> rfl
@[simp] theorem fetch_irqEn : (fetch s).2.irqEn = s.irqEn := by unfold fetch; split <;> rfl
@[simp] theorem fetch_response : (fetch s).2.response = none := by unfold fetch; split <;> rfl
@[simp] theorem fetch_serving : (fetch s).2.serving = inputIssuer (fetch s).1 := by
  unfold fetch; split <;> rfl
@[simp] theorem fetch_nslot : (fetch s).2.nslot = s.nslot := by simp [State.nslot]
@[simp] theorem fetch_slot (i : Nat) : (fetch s).2.slot i = s.slot i := slot_congr (fetch_slots s) i

end Fetch

/-- The lowest live slot with this sequence number, and that a handle is dead exactly when there is
none. -/
theorem holder_eq_none {s : State} {h : Word} : holder s h = none ↔ s.HandleDead h := by
  simp [holder, State.HandleDead]

theorem holder_spec {s : State} {h : Word} {k : Nat} (hk : holder s h = some k) :
    k ∈ s.live ∧ (s.slot k).seq = h := by
  constructor
  · exact List.mem_of_find?_eq_some hk
  · simpa using List.find?_some hk

/-- The holder of a handle, from its description. -/
theorem holder_of_least {s : State} {h : Word} {k : Nat} (hv : (s.slot k).valid = true)
    (hs : (s.slot k).seq = h)
    (hl : ∀ i, i < k → (s.slot i).valid = true → (s.slot i).seq ≠ h) : holder s h = some k := by
  have hmem : k ∈ s.live := mem_live.2 hv
  cases hk : holder s h with
  | none => exact absurd hs (holder_eq_none.1 hk k hmem)
  | some j =>
    obtain ⟨h1, h2⟩ := holder_spec hk
    have hjk : ¬ j < k := fun hlt => hl j hlt (mem_live.1 h1) h2
    obtain ⟨-, as, bs, hab, has⟩ := List.find?_eq_some_iff_append.1 hk
    have hsrt : s.live.Pairwise (· < ·) := indices_ascending s _
    rw [hab] at hmem hsrt
    rcases List.mem_append.1 hmem with hm | hm
    · simpa [hs] using has k hm
    · rcases List.mem_cons.1 hm with rfl | hm
      · rfl
      · have := (List.pairwise_cons.1 (List.pairwise_append.1 hsrt).2.1).1 k hm
        omega

/-- The response port takes no part in what ARM leaves. -/
theorem answered_programmed {s : State} {c : Word} {p : Bool} (r0 r1 r2 r3 r4 : Word)
    (h : s.Programmed c p) : (s.answered r0 r1 r2 r3 r4).Programmed c p :=
  programmed_congr (s := s) rfl rfl rfl rfl rfl rfl h

/-- What a command that ends with ARM leaves in the timer and `IRQ_PENDING`. -/
theorem armed_answered_programmed (s : State) (r0 r1 r2 r3 r4 : Word) :
    (s.arm.answered r0 r1 r2 r3 r4).Programmed s.cmpValue s.irqPending :=
  answered_programmed _ _ _ _ _ (arm_programmed s)

/-- After SERVICE's latch loop no pending event is due (R81). -/
theorem latchDue_none_due (s : State) :
    ∀ i ∈ (latchDue s).pend, (latchDue s).isDue ((latchDue s).slot i).deadline = false := by
  intro i hi
  rw [mem_pend, slot_latchDue] at hi
  rw [slot_latchDue]
  split at hi
  · simp at hi
  · rename_i hnd
    rw [if_neg hnd]
    simp only [newlyDue, hi.1, hi.2] at hnd
    simpa [State.isDue] using hnd

/-- Freeing a latched event leaves the pending events (R82). -/
theorem pend_freeSlot_ready {s : State} {b : Nat} (hb : b ∈ s.ready) : (s.freeSlot b).pend = s.pend := by
  apply indices_congr (by simp)
  intro i _
  rw [slot_freeSlot]
  split
  · subst i
    simp [Slot.free, (mem_ready.1 hb).2]
  · rfl

/-- So it leaves the nearest pending deadline. -/
theorem nearest_freeSlot_ready {s : State} {b : Nat} (hb : b ∈ s.ready) :
    (s.freeSlot b).nearest = s.nearest := by
  refine nearest_congr_on (by simp) (pend_freeSlot_ready hb) ?_ (fun _ _ h => select_mem h)
  intro i hi
  rw [slot_freeSlot, if_neg]
  rintro rfl
  have h1 := (mem_pend.1 hi).2
  rw [(mem_ready.1 hb).2] at h1
  cases h1

/-- The fetch where a step has been chosen. -/
theorem fetch_cons {s : State} {x : Input} {rest : List Input} (h : s.inputs = x :: rest) :
    fetch s = (x, { s with inputs := rest, serving := inputIssuer x, response := none }) := by
  simp [fetch, h]

theorem fetch_inputs (s : State) : (fetch s).2.inputs = s.inputs.tail := by
  unfold fetch
  split <;> simp_all

/-- A transaction is served only where one was chosen. -/
theorem inputs_of_fetch_command {s : State} {who : Issuer} {r : Request}
    (h : (fetch s).1 = .command who r) : ∃ rest, s.inputs = .command who r :: rest := by
  unfold fetch at h
  split at h
  · cases h
  · dsimp only at h
    subst h
    exact ⟨_, by assumption⟩

theorem fetch_indices (s : State) (q : Slot → Bool) : (fetch s).2.indices q = s.indices q :=
  indices_of_slots q (fetch_slots s)

/-- A command leaves the chosen steps and the issuer, and returns one response. -/
theorem exec_port {i : Instr} {s t : State} (h : exec i s = .next t) :
    t.inputs = s.inputs ∧ t.serving = s.serving ∧ ∃ r, t.response = some r := by
  cases exec_inv h <;> simp

end Sys2Proof.Machine
end

