-- ==== Sys2Proof/Laws/Ports.lean ====
section
/-!
SUPPORT. A command's effect on the TES does not depend on the model's own fields (the chosen steps and the
response port): 10_state.md R16, 60_exceptions.md R101.
-/
namespace Sys2Proof.Machine

/-- The same TES with other chosen steps and another response port. -/
def State.withPorts (s : State) (ins : List Input) (who : Option Issuer) (last : Option Response) :
    State :=
  { s with inputs := ins, serving := who, response := last }

section Ports
variable (s : State) (ins : List Input) (who : Option Issuer) (last : Option Response)

@[simp] theorem withPorts_timeWidth : (s.withPorts ins who last).timeWidth = s.timeWidth := rfl
@[simp] theorem withPorts_slots : (s.withPorts ins who last).slots = s.slots := rfl
@[simp] theorem withPorts_nslot : (s.withPorts ins who last).nslot = s.nslot := rfl

theorem arm_withPorts : (s.withPorts ins who last).arm = s.arm.withPorts ins who last := by
  have h1 : (s.withPorts ins who last).select = s.select := select_congr rfl rfl
  have h2 : (s.withPorts ins who last).pend = s.pend := pend_of_slots rfl
  have hsel : (s.withPorts ins who last).select (s.withPorts ins who last).pend = s.select s.pend := by
    rw [h1, h2]
  simp only [State.arm, hsel]
  cases s.select s.pend with
  | none => rfl
  | some b =>
    have hd : (s.withPorts ins who last).isDue ((s.withPorts ins who last).slot b).deadline =
        s.isDue (s.slot b).deadline := rfl
    dsimp only
    rw [hd]
    split <;> rfl

end Ports

/-- A command that ends with ARM, from the same TES with other ports. -/
theorem respond_arm_withPorts (s : State) (ins : List Input) (who : Option Issuer)
    (last : Option Response) (r0 r1 r2 r3 r4 : Word) :
    respond r0 r1 r2 r3 r4 (s.withPorts ins who last).arm =
      .next ((s.arm.answered r0 r1 r2 r3 r4).withPorts ins who (some ⟨.ok, r0, r1, r2, r3, r4⟩)) := by
  rw [arm_withPorts]
  rfl

/-- A command from the same TES with other ports does the same and answers the same. -/
theorem exec_withPorts {i : Instr} {s t : State} (ins : List Input) (who : Option Issuer)
    (last : Option Response) (h : exec i s = .next t) :
    exec i (s.withPorts ins who last) = .next (t.withPorts ins who t.response) := by
  have hready : (s.withPorts ins who last).select (s.withPorts ins who last).ready =
      s.select s.ready := by
    have h1 : (s.withPorts ins who last).select = s.select := select_congr rfl rfl
    have h2 : (s.withPorts ins who last).ready = s.ready := ready_of_slots rfl
    rw [h1, h2]
  have hfree : (s.withPorts ins who last).freeSlots = s.freeSlots := rfl
  have hhold : ∀ k, holder (s.withPorts ins who last) k = holder s k := fun _ => rfl
  cases exec_inv h with
  | capacityExceeded d cb p hf => simp only [exec, execSchedule, hfree, hf, List.head?_nil]; rfl
  | scheduled d cb p f hf =>
    simp only [exec, execSchedule, hfree, hf]
    exact respond_arm_withPorts (addEvent s f d cb p) ins who last _ _ _ _ _
  | notFound k hk => simp only [exec, execCancel, hhold, hk]; rfl
  | cancelled k j hk =>
    simp only [exec, execCancel, hhold, hk]
    exact respond_arm_withPorts (s.freeSlot j) ins who last _ _ _ _ _
  | cancelledAll p => exact respond_arm_withPorts (freeTagged s p) ins who last _ _ _ _ _
  | maintained => exact respond_arm_withPorts s ins who last _ _ _ _ _
  | serviced => exact respond_arm_withPorts (latchDue s) ins who last _ _ _ _ _
  | noneDue hr =>
    simp only [exec, execRunNext, hready, select_eq_none.2 hr]
    rfl
  | popped b hb =>
    simp only [exec, execRunNext, hready, hb]
    exact respond_arm_withPorts (s.freeSlot b) ins who last _ _ _ _ _
  | time => rfl
  | status => rfl
  | badSlot k hk => simp only [exec, execReadSlot, withPorts_nslot, Nat.not_lt.2 hk]; rfl
  | slot k hk => simp only [exec, execReadSlot, withPorts_nslot, hk]; rfl
  | counted p => rfl
  | controlled c => rfl

end Sys2Proof.Machine
end

