-- ==== Sys2Proof/Laws/Run.lean ====
section
/-!
SUPPORT. Runs of steps: every step answers a next state, a run one step at a time, and what a command or a
step may leave in a slot (10_state.md R31), which is what claims along a run rest on.
-/
namespace Sys2Proof.Machine

/-- No step stops (60_exceptions.md R96). -/
theorem step_total (s : State) : ∃ t, step s = .next t := by
  unfold step
  rcases fetch s with ⟨x, u⟩
  cases x with
  | tick => exact ⟨_, rfl⟩
  | reset => exact ⟨_, rfl⟩
  | command who r =>
    dsimp only
    cases decode r with
    | error e => exact ⟨_, rfl⟩
    | ok i =>
      obtain ⟨t, ht, -⟩ := exec_case i u
      exact ⟨t, ht⟩

theorem run_of_step (M : Host.Core) {k : Nat} {s s' : M.State} (h : M.step s = .next s') :
    M.run (k + 1) s = M.run k s' := by
  simp only [Host.Core.run, h]

/-- A run of one more step is the step and the run from there. -/
theorem run_cons {k : Nat} {s s' : State} (h : step s = .next s') : core.run (k + 1) s = core.run k s' :=
  run_of_step core h

theorem run_succ {k : Nat} {s t : State} (h : core.run (k + 1) s = .next t) :
    ∃ s', step s = .next s' ∧ core.run k s' = .next t := by
  obtain ⟨s', hs'⟩ := step_total s
  exact ⟨s', hs', by rw [← run_cons hs', h]⟩

/-- The slot is what an earlier live slot was, with the same handle and parameter, or the event of the
SCHEDULE just executed. -/
def SlotOrigin (s t : State) (j : Nat) (sent : Word → Word → Word → Prop) : Prop :=
  ((s.slot j).valid = true ∧ (t.slot j).seq = (s.slot j).seq ∧ (t.slot j).param = (s.slot j).param) ∨
    ∃ d cb p, sent d cb p ∧ s.freeSlots.head? = some j ∧ (t.slot j).seq = s.seqNext ∧
      (t.slot j).param = p ∧ t.seqNext = s.seqNext + 1

/-- Where a live slot after a command comes from. -/
theorem exec_slot_origin {i : Instr} {s t : State} (h : exec i s = .next t) (j : Nat)
    (hv : (t.slot j).valid = true) : SlotOrigin s t j (fun d cb p => i = .schedule d cb p) := by
  have armed : ∀ (u : State) (r0 r1 r2 r3 r4 : Word),
      (u.arm.answered r0 r1 r2 r3 r4).slot j = u.slot j := fun u _ _ _ _ _ => slot_congr (by simp) j
  have kept : ∀ {u : State}, u.slots = s.slots → u.slot j = s.slot j := fun h => slot_congr h j
  unfold SlotOrigin
  cases exec_inv h with
  | scheduled d cb p f hf =>
    have hfl := (mem_indices.1 (head_mem_indices hf)).1
    rw [armed, slot_addEvent _ hfl] at *
    split
    · rename_i hj
      subst hj
      exact .inr ⟨d, cb, p, rfl, hf, rfl, rfl, by simp⟩
    · rename_i hj
      rw [if_neg hj] at hv
      exact .inl ⟨hv, rfl, rfl⟩
  | cancelled k m hk =>
    rw [armed, slot_freeSlot] at *
    split
    · rename_i hj
      rw [if_pos hj] at hv
      cases hv
    · rename_i hj
      rw [if_neg hj] at hv
      exact .inl ⟨hv, rfl, rfl⟩
  | popped b hb =>
    rw [armed, slot_freeSlot] at *
    split
    · rename_i hj
      rw [if_pos hj] at hv
      cases hv
    · rename_i hj
      rw [if_neg hj] at hv
      exact .inl ⟨hv, rfl, rfl⟩
  | cancelledAll p =>
    rw [armed, slot_freeTagged] at *
    split
    · rename_i hj
      rw [if_pos hj] at hv
      cases hv
    · rename_i hj
      rw [if_neg hj] at hv
      exact .inl ⟨hv, rfl, rfl⟩
  | maintained =>
    rw [armed] at *
    exact .inl ⟨hv, rfl, rfl⟩
  | serviced =>
    rw [armed, slot_latchDue] at *
    split
    · rename_i hj
      rw [if_pos hj] at hv
      exact .inl ⟨hv, rfl, rfl⟩
    · rename_i hj
      rw [if_neg hj] at hv
      exact .inl ⟨hv, rfl, rfl⟩
  | _ =>
    rw [kept (by simp)] at *
    exact .inl ⟨hv, rfl, rfl⟩

/-- Where a live slot after a step comes from. -/
theorem step_slot_origin {s t : State} (h : step s = .next t) (j : Nat) (hv : (t.slot j).valid = true) :
    SlotOrigin s t j (fun d cb p => inputInstr (fetch s).1 = some (.schedule d cb p)) := by
  rcases step_cases h with ⟨hf, rfl⟩ | ⟨hf, rfl⟩ | ⟨who, q, e, hf, hd, rfl⟩ | ⟨who, q, i, hf, hd, hx⟩
  · have e : (tick (fetch s).2).slot j = s.slot j := slot_congr (by simp) j
    rw [e] at hv
    exact .inl ⟨hv, by rw [e], by rw [e]⟩
  · have e : (applyReset (fetch s).2).slot j = (State.resetWith (fetch s).2.params).slot j := rfl
    rw [e, slot_resetWith] at hv
    cases hv
  · have e : ((fetch s).2.failed .illegalCommand).slot j = s.slot j := slot_congr (by simp) j
    rw [e] at hv
    exact .inl ⟨hv, by rw [e], by rw [e]⟩
  · rcases exec_slot_origin hx j hv with h | ⟨d, cb, p, rfl, h1, h2, h3, h4⟩
    · exact .inl (by simpa using h)
    · refine .inr ⟨d, cb, p, ?_, ?_, by simpa using h2, h3, by simpa using h4⟩
      · rw [hf]
        simp [inputInstr, hd]
      · rw [← h1, State.freeSlots, State.freeSlots, fetch_indices]

end Sys2Proof.Machine
end

