-- ==== Sys2Proof/Laws/Horizon.lean ====
section
/-!
SUPPORT. The horizon of 70_reset_and_hazards.md R112 as an arc shorter than half the ring, on which
40_time_compare.md R72 applies, and which parts of a state the invariants of Safety.lean read.
-/
namespace Sys2Proof.Machine

theorem sdiff_eq (w : Nat) (a b : Word) : sdiff w a b =
    if (a - b).toNat % 2 ^ w < 2 ^ (w - 1) then (((a - b).toNat % 2 ^ w : Nat) : Int)
    else (((a - b).toNat % 2 ^ w : Nat) : Int) - (2 ^ w : Nat) := rfl

theorem slot_deadline_lt {s : State} (hw : s.WidthInv) (i : Nat) :
    (s.slot i).deadline.toNat < 2 ^ s.timeWidth := by
  by_cases h : i < s.nslot
  · exact forall_slots.1 hw.2.2 i h
  · rw [slot_of_le (Nat.le_of_not_lt h)]
    exact Nat.two_pow_pos _

theorem slotInv_at {s : State} (h : s.SlotInv) (i : Nat) :
    ((s.slot i).due = true → (s.slot i).valid = true) ∧
      ((s.slot i).valid = false → s.slot i = Slot.free) := by
  by_cases hi : i < s.nslot
  · exact forall_slots.1 h i hi
  · rw [slot_of_le (Nat.le_of_not_lt hi)]
    simp [Slot.free]

theorem mem_live_of_pend {s : State} {i : Nat} (h : i ∈ s.pend) : i ∈ s.live :=
  mem_live.2 (mem_pend.1 h).1

/-- The timer invariant reads the slots, `TW` and the timer. -/
theorem timerInv_congr {s t : State} (hs : t.slots = s.slots) (hw : t.timeWidth = s.timeWidth)
    (ha : t.cmpArmed = s.cmpArmed) (hc : t.cmpValue = s.cmpValue) (h : s.TimerInv) : t.TimerInv := by
  simpa only [State.TimerInv, ha, hc, pend_of_slots hs, nearest_congr hs hw] using h

/-- R34's conclusion reads the slots, `TW`, `NOW` and `IRQ_PENDING`. -/
theorem irqInv_congr {s t : State} (hs : t.slots = s.slots) (hw : t.timeWidth = s.timeWidth)
    (hn : t.now = s.now) (hp : t.irqPending = s.irqPending) (h : s.IrqInv) : t.IrqInv := by
  simpa only [State.IrqInv, hp, pend_of_slots hs, slot_congr hs, State.isDue, hw, hn] using h

/-- From the base `NOW - L`, a deadline inside the horizon lies `L` more than its signed distance ahead,
and in the lower half of the ring. -/
theorem horizon_arc {s : State} (h1 : 2 ≤ s.timeWidth) (h2 : s.timeWidth ≤ 32) {d : Word}
    (l : -(s.horizon : Int) ≤ sdiff s.timeWidth d s.now) (u : sdiff s.timeWidth d s.now ≤ s.horizon) :
    (offset s.timeWidth (s.now - BitVec.ofNat 32 s.horizon) d : Int) =
        sdiff s.timeWidth d s.now + s.horizon ∧
      offset s.timeWidth (s.now - BitVec.ofNat 32 s.horizon) d < 2 ^ (s.timeWidth - 1) := by
  have hh := two_pow_half (w := s.timeWidth) (by omega)
  have hq := two_pow_half (w := s.timeWidth - 1) (by omega)
  rw [show s.timeWidth - 1 - 1 = s.timeWidth - 2 by omega] at hq
  have h32 := two_pow_le h2
  have hp : (0 : Nat) < 2 ^ (s.timeWidth - 2) := by positivity
  have e : offset s.timeWidth (s.now - BitVec.ofNat 32 s.horizon) d =
      ((d - s.now).toNat % 2 ^ s.timeWidth + s.horizon) % 2 ^ s.timeWidth := by
    have : d - (s.now - BitVec.ofNat 32 s.horizon) = (d - s.now) + BitVec.ofNat 32 s.horizon := by
      rw [BitVec.sub_eq_add_neg, BitVec.sub_eq_add_neg, BitVec.sub_eq_add_neg]
      ring
    rw [offset, this, BitVec.toNat_add, Nat.mod_mod_of_dvd _ (two_pow_dvd h2), BitVec.toNat_ofNat,
      Nat.mod_eq_of_lt (a := s.horizon) (by unfold State.horizon; omega), Nat.add_mod]
    simp
  rw [e]
  rw [sdiff_eq] at *
  have hlt : (d - s.now).toNat % 2 ^ s.timeWidth < 2 ^ s.timeWidth := Nat.mod_lt _ (by positivity)
  unfold State.horizon at *
  clear e h32
  generalize (d - s.now).toNat % 2 ^ s.timeWidth = x at *
  generalize 2 ^ (s.timeWidth - 2) = q at *
  generalize 2 ^ (s.timeWidth - 1) = h at *
  generalize 2 ^ s.timeWidth = m at *
  split at u <;> split at l <;> (try omega)
  · rw [Nat.mod_eq_of_lt (by omega)]
    simp_all
    omega
  · have : (x + (q - 1)) % m = x + (q - 1) - m := by
      rw [Nat.mod_eq_sub_mod (by omega), Nat.mod_eq_of_lt (by omega)]
    rw [this]
    simp_all
    omega

end Sys2Proof.Machine
end

