-- ==== Sys2Proof/Laws/PerInstr.lean ====
section
/-!
SUPPORT. Statements made per instruction, one lemma for each constructor of Instr. Family EncodedRow: the
command word the encoder writes for a well-formed instruction lies on the row of the opcode map
(30_encoding.md R57) that has the instruction's mnemonic.
-/
namespace Sys2Proof.Laws.EncodedRow

/-- The encoded command word is covered by the instruction's own row of the opcode map. -/
def Statement (i : Instr) : Prop :=
  i.WellFormed → ∃ row ∈ opcodeMap, row.mnemonic = i.mnemonic ∧ row.covers (encode i).cmd = true

theorem schedule (d cb p : Word) : Statement (.schedule d cb p) :=
  fun _ => ⟨⟨"SCHEDULE", 0x00000001, 0xFFFFFFFF⟩, by simp [opcodeMap], rfl, by simp [OpcodeRow.covers, encode]⟩

theorem cancel (h : Word) : Statement (.cancel h) :=
  fun _ => ⟨⟨"CANCEL", 0x00000002, 0xFFFFFFFF⟩, by simp [opcodeMap], rfl, by simp [OpcodeRow.covers, encode]⟩

theorem cancelAll (p : Word) : Statement (.cancelAll p) :=
  fun _ => ⟨⟨"CANCEL_ALL", 0x00000003, 0xFFFFFFFF⟩, by simp [opcodeMap], rfl, by simp [OpcodeRow.covers, encode]⟩

theorem maintain : Statement .maintain :=
  fun _ => ⟨⟨"MAINTAIN", 0x00000004, 0xFFFFFFFF⟩, by simp [opcodeMap], rfl, by simp [OpcodeRow.covers, encode]⟩

theorem service : Statement .service :=
  fun _ => ⟨⟨"SERVICE", 0x00000005, 0xFFFFFFFF⟩, by simp [opcodeMap], rfl, by simp [OpcodeRow.covers, encode]⟩

theorem runNext : Statement .runNext :=
  fun _ => ⟨⟨"RUN_NEXT", 0x00000006, 0xFFFFFFFF⟩, by simp [opcodeMap], rfl, by simp [OpcodeRow.covers, encode]⟩

theorem readTime : Statement .readTime :=
  fun _ => ⟨⟨"READ_TIME", 0x00000007, 0xFFFFFFFF⟩, by simp [opcodeMap], rfl, by simp [OpcodeRow.covers, encode]⟩

theorem readStatus : Statement .readStatus :=
  fun _ => ⟨⟨"READ_STATUS", 0x00000008, 0xFFFFFFFF⟩, by simp [opcodeMap], rfl, by simp [OpcodeRow.covers, encode]⟩

theorem readSlot (slot : BitVec 8) : Statement (.readSlot slot) := by
  refine fun _ => ⟨⟨"READ_SLOT", 0x00000009, 0xFFFF00FF⟩, by simp [opcodeMap], rfl, ?_⟩
  have h : ∀ v : BitVec 8, OpcodeRow.covers ⟨"READ_SLOT", 0x00000009, 0xFFFF00FF⟩
      (encode (.readSlot v)).cmd = true := by decide
  exact h slot

theorem countParam (p : Word) : Statement (.countParam p) :=
  fun _ => ⟨⟨"COUNT_PARAM", 0x0000000A, 0xFFFFFFFF⟩, by simp [opcodeMap], rfl, by simp [OpcodeRow.covers, encode]⟩

theorem writeCtrl (ctrlv : BitVec 8) : Statement (.writeCtrl ctrlv) := by
  refine fun hw => ⟨⟨"WRITE_CTRL", 0x0000000B, 0xFFFE00FF⟩, by simp [opcodeMap], rfl, ?_⟩
  have h : ∀ v : BitVec 8, (Instr.writeCtrl v).WellFormed →
      OpcodeRow.covers ⟨"WRITE_CTRL", 0x0000000B, 0xFFFE00FF⟩ (encode (.writeCtrl v)).cmd = true := by decide
  exact h ctrlv hw

end Sys2Proof.Laws.EncodedRow
end

