-- ==== Sys2Proof/Tests/Slice0.lean ====
section
/-!
SUPPORT. The model's own tests, each a step on a small state with its expected result taken from the spec
(95_test_vectors.md unless another rule is named), and for each statement with hypotheses a witness that
meets them all.
-/
namespace Sys2Proof.Machine.Tests

/-! ### Helpers -/

/-- The parameters of the spec's `TW = 8` vectors. -/
def narrow : Params := ⟨8, 4, 4⟩

/-- A live event. -/
def ev (deadline callback param seq : Word) : Slot := ⟨true, false, deadline, callback, param, seq⟩

/-- A latched event. -/
def latched (deadline callback param seq : Word) : Slot := ⟨true, true, deadline, callback, param, seq⟩

/-- Reset, then these slots (the others free), this `SEQ_NEXT`, and the timer armed for `cmp`. -/
def holding (p : Params) (slots : List Slot) (seqNext cmp : Word) : State :=
  { State.resetWith p with
    slots := slots ++ List.replicate (p.nslot - slots.length) Slot.free
    seqNext := seqNext, cmpArmed := true, cmpValue := cmp }

/-- The same state with these steps chosen. -/
def choosing (s : State) (ins : List Input) : State := { s with inputs := ins }

/-- A transaction of the normal context. -/
def sent (cmd arg0 arg1 arg2 : Word) : Input := .command .normal ⟨cmd, arg0, arg1, arg2⟩

/-- The next state an answer gives, or the state it came from. -/
def after (s : State) (a : Answer) : State :=
  match a with
  | .next t => t
  | .fault _ => s
  | .refused _ => s

/-- The state after one command. -/
def did (i : Instr) (s : State) : State := after s (exec i s)

/-- The state after one step. -/
def stepped (s : State) : State := after s (step s)

def ok (r0 r1 r2 r3 r4 : Word) : Option Response := some ⟨.ok, r0, r1, r2, r3, r4⟩
def bad (code : Status) : Option Response := some ⟨code, 0, 0, 0, 0, 0⟩

/-- L1-1 after its five SCHEDULE commands. -/
def five : State := holding Params.default
  [ev 100 0xCB000100 0xA 0, ev 50 0xCB000050 0xB 1, ev 150 0xCB000150 0xA 2, ev 50 0xCB000051 0xC 3,
    ev 200 0xCB000200 0xA 4] 5 50

/-- T-SCH-1's end. -/
def one : State := holding Params.default [ev 100 0xCB000001 0xA 0] 1 100

/-- A `TW = 8` state at `NOW = 25`: an event that is due, one that is not, and one latched. -/
def mixed : State := { holding narrow [ev 20 0xC1 1 0, ev 30 0xC2 2 1, latched 10 0xC3 3 2] 3 20 with
  now := 25, irqPending := true }

/-- T-SRV-5's start: an event 128 ticks late at `TW = 8`. -/
def late : State := { holding narrow [ev 10 1 1 0] 1 10 with now := 138, irqPending := true }

/-- Two latched events with equal deadlines, the earlier scheduled in the upper slot (P4, step 9). -/
def twins : State := { State.resetWith ⟨32, 16, 2⟩ with
  now := 7, slots := [latched 5 0xA4 4 2, latched 5 0xA2 2 1], seqNext := 3, cmpValue := 5 }

/-! ### WellFormed: an ill-formed term for its one check -/

theorem test_wf_refuses_ctrl_bits : ¬ (Instr.writeCtrl 2).WellFormed ∧ ¬ (Instr.writeCtrl 0xFE).WellFormed ∧
    ¬ (Instr.writeCtrl 0x80).WellFormed := by decide

theorem test_wf_accepts_ctrl_bit : (Instr.writeCtrl 0).WellFormed ∧ (Instr.writeCtrl 1).WellFormed := by
  decide

/-! ### Decode: words written out from R52, R53 and R57, one for every constructor -/

theorem test_decode_schedule : decode ⟨0b00000000000000000000000000000001, 100, 0xCB000001, 0xA⟩ =
    .ok (.schedule 100 0xCB000001 0xA) := rfl

theorem test_decode_cancel : decode ⟨0b00000000000000000000000000000010, 7, 8, 9⟩ = .ok (.cancel 7) := rfl

theorem test_decode_cancel_all : decode ⟨0b00000000000000000000000000000011, 0xA, 8, 9⟩ =
    .ok (.cancelAll 0xA) := rfl

theorem test_decode_maintain : decode ⟨0b00000000000000000000000000000100, 0, 0, 0⟩ = .ok .maintain := rfl

theorem test_decode_service : decode ⟨0b00000000000000000000000000000101, 0, 0, 0⟩ = .ok .service := rfl

theorem test_decode_run_next : decode ⟨0b00000000000000000000000000000110, 0, 0, 0⟩ = .ok .runNext := rfl

theorem test_decode_read_time : decode ⟨0b00000000000000000000000000000111, 1, 2, 3⟩ = .ok .readTime := rfl

theorem test_decode_read_status : decode ⟨0b00000000000000000000000000001000, 0, 0, 0⟩ =
    .ok .readStatus := rfl

theorem test_decode_read_slot : decode ⟨0b00000000000000001010010100001001, 0, 0, 0⟩ =
    .ok (.readSlot 0xA5) := rfl

theorem test_decode_count_param : decode ⟨0b00000000000000000000000000001010, 0xB, 0, 0⟩ =
    .ok (.countParam 0xB) := rfl

theorem test_decode_write_ctrl : decode ⟨0b00000000000000010000000000001011, 0, 0, 0⟩ =
    .ok (.writeCtrl 1) := rfl

/-- T-DEC-1 to T-DEC-10 and T-DEC-17, each by the check of R61 that refuses it, and a WRITE_CTRL word with
a nonzero `SLOT` (R61's third check; log entry 14). -/
theorem test_decode_illegal :
    decode ⟨0x00000000, 0, 0, 0⟩ = .error .opcode ∧ decode ⟨0x0000000C, 0, 0, 0⟩ = .error .opcode ∧
    decode ⟨0x000000FF, 0, 0, 0⟩ = .error .opcode ∧ decode ⟨0x01000001, 0, 0, 0⟩ = .error .reserved ∧
    decode ⟨0x80000008, 0, 0, 0⟩ = .error .reserved ∧ decode ⟨0x00000101, 0, 0, 0⟩ = .error .slot ∧
    decode ⟨0x00010001, 0, 0, 0⟩ = .error .ctrl ∧ decode ⟨0x0002000B, 0, 0, 0⟩ = .error .ctrlValue ∧
    decode ⟨0x00FE000B, 0, 0, 0⟩ = .error .ctrlValue ∧ decode ⟨0x00FF0009, 0, 0, 0⟩ = .error .ctrl ∧
    decode ⟨0x00FFFF09, 0, 0, 0⟩ = .error .ctrl ∧ decode ⟨0x0001010B, 0, 0, 0⟩ = .error .slot :=
  ⟨rfl, rfl, rfl, rfl, rfl, rfl, rfl, rfl, rfl, rfl, rfl, rfl⟩

/-- The opcode table's numbering: 8 bits are enough for a row whose other bits are 0, and `ARG0` starts at
bit 32. -/
theorem test_decodeTableWord : decodeTableWord 8 0x05 = some .service ∧
    decodeTableWord 32 0x0000FF09 = some (.readSlot 0xFF) ∧
    decodeTableWord 128 (0x02 + 7 * 2 ^ 32) = some (.cancel 7) ∧ decodeTableWord 32 0x0C = none :=
  ⟨rfl, rfl, rfl, rfl⟩

/-- The assembler's words (P1, steps 1, 2 and 8; R66), its refusals (R65), and a response's comment (P1,
step 14). -/
theorem test_assemble_words :
    assembleText .normal ["IRQ_ON", "SCHEDULE 100, 0xCB000100, 0xA", "CANCEL_TAG 10 ; the tag A"] =
      some [sent 0x0001000B 0 0 0, sent 0x00000001 0x64 0xCB000100 0xA, sent 0x00000003 0xA 0 0] ∧
    assembleText .normal ["TICK 2", "RESET", "; nothing"] = some [.tick, .tick, .reset] := by decide

theorem test_assemble_refuses : assembleText .normal ["READ_SLOT 256"] = none ∧
    assembleText .normal ["WRITE_CTRL 2"] = none ∧ assembleText .normal ["CANCEL 1, 2"] = none := by decide

theorem test_response_comment :
    responseComment ⟨.ok, 7, 0, 2, 50, 0⟩ = "; -> OK RES0=7 RES2=2 RES3=50" := by decide

/-! ### Time comparison -/

/-- T-BEF-1, 2, 4, 5, 6, 8, 10, 11 and 13. -/
theorem test_before : before 32 0xFFFFFFF8 0x10 = true ∧ before 32 0x10 0xFFFFFFF8 = false ∧
    before 32 0 0x80000000 = true ∧ before 32 0x80000000 0 = true ∧ before 32 0x7FFFFFFF 0 = false ∧
    before 32 0xFFFFFFFF 0 = true ∧ before 32 100 50 = false ∧ before 8 128 0 = true ∧
    before 8 127 0 = false := by decide

/-- T-DUE-1 to 4, 9, 11, 12 and 16. -/
theorem test_is_due : isDue 32 0 0 = true ∧ isDue 32 0 1 = false ∧ isDue 32 0 0x80000000 = false ∧
    isDue 32 0 0x80000001 = true ∧ isDue 32 0xFFFFFFF0 0x7FFFFFF1 = true ∧ isDue 8 200 72 = false ∧
    isDue 8 200 73 = true ∧ isDue 8 200 0 = false := by decide

/-- T-SEL-1, 2, 4, 5, 6 and 9. -/
theorem test_select :
    (holding ⟨32, 16, 4⟩ [ev 5 0 0 0, ev 0xFFFFFFF0 0 0 1, Slot.free, ev 20 0 0 3] 4 0).select [0, 1, 3] =
      some 1 ∧
    (holding ⟨32, 16, 2⟩ [ev 10 0 0 5, ev 10 0 0 3] 6 0).select [0, 1] = some 1 ∧
    (holding narrow [ev 0 0 0 0, ev 128 0 0 1] 2 0).select [0, 1] = some 1 ∧
    (holding narrow [ev 128 0 0 0, ev 0 0 0 1] 2 0).select [0, 1] = some 1 ∧
    (holding narrow [ev 0 0 0 0, ev 86 0 0 1, ev 172 0 0 2] 3 0).select [0, 1, 2] = some 2 ∧
    (holding ⟨32, 16, 2⟩ [ev 10 0 0 0, ev 10 0 0 0xFFFFFFFF] 1 0).select [0, 1] = some 1 := by decide

/-! ### One step of each command and of the environment -/

/-- T-SCH-1. -/
theorem test_schedule : did (.schedule 100 0xCB000001 0xA) State.reset =
    { one with response := ok 0 0 0 0 0 } := by decide

/-- T-SCH-5: a truncated deadline that counts as past. -/
theorem test_schedule_past : let t := did (.schedule 0x1FF 1 1) (State.resetWith narrow)
    t.slot 0 = ev 0xFF 1 1 0 ∧ t.cmpValue = 255 ∧ t.irqPending = true := by decide

/-- T-CAN-1. -/
theorem test_cancel : let t := did (.cancel 0) (holding Params.default [ev 100 1 1 0, ev 200 2 2 1] 2 100)
    t.live = [1] ∧ t.cmpArmed = true ∧ t.cmpValue = 200 ∧ t.response = ok 0 0 0 0 0 := by decide

/-- T-CAN-5. -/
theorem test_cancel_unknown : did (.cancel 0) State.reset =
    { State.reset with response := bad .notFound } := by decide

/-- L1-1, step 6. -/
theorem test_cancel_all : let t := did (.cancelAll 0xA) five
    t.response = ok 3 0 0 0 0 ∧ t.live = [1, 3] ∧ t.cmpArmed = true ∧ t.cmpValue = 50 := by decide

/-- R79: a latched event is removed too, and `IRQ_PENDING` stays. -/
theorem test_cancel_all_latched : let t := did (.cancelAll 3) mixed
    t.response = ok 1 0 0 0 0 ∧ t.ready = [] ∧ t.irqPending = true := by decide

/-- T-MNT-2. -/
theorem test_maintain : did .maintain one = { one with response := ok 0 0 0 0 0 } := by decide

/-- R73: a nearest pending deadline that is due raises the interrupt. -/
theorem test_maintain_run_asap : let t := did .maintain { mixed with irqPending := false, cmpArmed := false }
    t.cmpArmed = true ∧ t.cmpValue = 20 ∧ t.irqPending = true := by decide

/-- R81: of two pending events the due one is latched, and the timer goes to the other. -/
theorem test_service : let t := did .service mixed
    t.response = ok 1 0 0 0 0 ∧ t.ready = [0, 2] ∧ t.cmpValue = 30 ∧ t.irqPending = false := by decide

/-- T-SRV-5: an event 128 ticks late at `TW = 8` is not latched. -/
theorem test_service_too_late : let t := did .service late
    t.response = ok 0 0 0 0 0 ∧ t.ready = [] ∧ t.cmpArmed = true ∧ t.irqPending = false := by decide

/-- P4, step 9: FIFO with the earlier event in the upper slot. -/
theorem test_run_next : let t := did .runNext twins
    t.response = ok 0xA2 2 1 5 1 ∧ t.ready = [0] ∧ t.slot 1 = Slot.free := by decide

/-- T-RUN-3: due but not latched. -/
theorem test_run_next_none : (did .runNext { holding Params.default [ev 10 1 1 0] 1 10 with
    now := 10, irqPending := true }).response = bad .noneDue := by decide

/-- R76's example. -/
theorem test_read_time : (did .readTime { State.reset with now := 0x0001FFFF }).response =
    ok 0x0001FFFF 0x0000FFFF 0 0 0 := by decide

/-- T-RS-2. -/
theorem test_read_status : (did .readStatus { one with irqEn := true }).response =
    ok 0x5 100 1 0 1 := by decide

/-- P4, step 7: pending and armed but masked. -/
theorem test_read_status_masked : (did .readStatus { one with irqPending := true }).response =
    ok 0x6 100 1 0 1 := by decide

/-- R88's example, and `DUE` as bit 1. -/
theorem test_read_slot : (did (.readSlot 0) one).response = ok 1 100 0xCB000001 0xA 0 ∧
    (did (.readSlot 2) mixed).response = ok 3 10 0xC3 3 2 := by decide

/-- T-DEC-15, T-DEC-16 and T-RSL-1. -/
theorem test_read_slot_bounds : (did (.readSlot 8) State.reset).response = bad .badSlot ∧
    (did (.readSlot 255) State.reset).response = bad .badSlot ∧
    (did (.readSlot 7) State.reset).response = ok 0 0 0 0 0 := by decide

/-- T-CP-3, and T-CP-1: free slots are not counted. -/
theorem test_count_param : (did (.countParam 0xA) five).response = ok 3 0 0 0 0 ∧
    (did (.countParam 0) State.reset).response = ok 0 0 0 0 0 := by decide

/-- T-WC-1 and T-WC-2. -/
theorem test_write_ctrl : (did (.writeCtrl 1) mixed).irq = true ∧
    (did (.writeCtrl 0) { mixed with irqEn := true }).irq = false ∧
    (did (.writeCtrl 0) { mixed with irqEn := true }).irqPending = true := by decide

/-- T-TICK-1 and T-TICK-2: a match on the wrap, and a disarmed timer. -/
theorem test_tick : (stepped { one with now := 0xFFFFFFFF, cmpValue := 0 }).now = 0 ∧
    (stepped { one with now := 0xFFFFFFFF, cmpValue := 0 }).irqPending = true ∧
    (stepped { State.resetWith narrow with now := 255 }).now = 0 ∧
    (stepped { State.resetWith narrow with now := 255 }).irqPending = false := by decide

/-- T-RST-1. -/
theorem test_reset : stepped (choosing { mixed with irqEn := true } [.reset]) = State.resetWith narrow := by
  decide

/-- T-DEC-4: an illegal command changes no state. -/
theorem test_illegal : stepped (choosing one [sent 0x01000001 5 1 1]) =
    { one with serving := some .normal, response := bad .illegalCommand } := by decide

/-- The first step after reset runs the word placed for it. -/
theorem test_withFetchWord :
    step (State.reset.withFetchWord 32 0x0001000B) =
      .next { State.reset with irqEn := true, serving := some .normal, response := ok 0 0 0 0 0 } ∧
    (stepped (State.reset.withFetchWord 128 (0x01 + 100 * 2 ^ 32 + 0xCB000001 * 2 ^ 64 + 0xA * 2 ^ 96))).slots
      = one.slots := ⟨rfl, by decide⟩

/-! ### Witnesses: for each statement with hypotheses, operands and states that meet them

Each names its statement. Where a statement has several clauses, there is one witness for each, at the
boundary of its range. -/

theorem witness_DecodeOfEncodeIsTheInstruction : (Instr.writeCtrl 1).WellFormed ∧
    (Instr.writeCtrl 0).WellFormed ∧ (Instr.readSlot 0xFF).WellFormed ∧
    (Instr.schedule 0xFFFFFFFF 0 0).WellFormed := by decide

theorem witness_DecodedInstructionEncodesBack :
    decode ⟨1, 5, 6, 7⟩ = .ok (.schedule 5 6 7) ∧ 3 ≤ (Instr.schedule 5 6 7).operandWords ∧
    decode ⟨2, 5, 6, 7⟩ = .ok (.cancel 5) ∧ 1 ≤ (Instr.cancel 5).operandWords ∧
    ¬ 2 ≤ (Instr.cancel 5).operandWords ∧ decode ⟨4, 5, 6, 7⟩ = .ok .maintain ∧
    ¬ 1 ≤ Instr.maintain.operandWords := ⟨rfl, by decide, rfl, by decide, by decide, rfl, by decide⟩

theorem witness_OpcodeMapRowsDecideTheInstruction :
    (∃ row ∈ opcodeMap, row.covers 0x0000FF09 = true ∧ row.mnemonic = "READ_SLOT") ∧
    (∃ row ∈ opcodeMap, row.covers 0x0001000B = true ∧ (0x0001000B : Word).toNat / 2 ^ 8 % 256 = 0) ∧
    (∀ row ∈ opcodeMap, row.covers 0x0002000B = false) ∧ (∀ row ∈ opcodeMap, row.covers 0 = false) := by
  decide

theorem witness_IllegalCommandsAreRefusedWithoutEffect :
    (choosing one [sent 0 0 0 0]).inputs = .command .normal ⟨0, 0, 0, 0⟩ :: [] ∧
    (0x00000000 : Word).toNat % 256 = 0 ∧ 12 ≤ (0x0000000C : Word).toNat % 256 ∧
    (0x01000001 : Word).toNat / 2 ^ 24 ≠ 0 ∧
    ((0x00000101 : Word).toNat / 2 ^ 8 % 256 ≠ 0 ∧ (0x00000101 : Word).toNat % 256 ≠ 9) ∧
    ((0x00010001 : Word).toNat / 2 ^ 16 % 256 ≠ 0 ∧ (0x00010001 : Word).toNat % 256 ≠ 11) ∧
    ((0x0002000B : Word).toNat % 256 = 11 ∧ (0x0002000B : Word).toNat / 2 ^ 17 % 128 ≠ 0) :=
  ⟨rfl, by decide⟩

theorem witness_OtherCommandWordsAreLegal : ∀ w ∈ [0x00000001, 0x0000FF09, 0x0000000B, (0x0001000B : Word)],
    1 ≤ w.toNat % 256 ∧ w.toNat % 256 ≤ 11 ∧ w.toNat / 2 ^ 24 = 0 ∧
    (w.toNat / 2 ^ 8 % 256 = 0 ∨ w.toNat % 256 = 9) ∧ (w.toNat / 2 ^ 16 % 256 = 0 ∨ w.toNat % 256 = 11) ∧
    (w.toNat % 256 = 11 → w.toNat / 2 ^ 17 % 128 = 0) := by
  intro w hw
  simp only [List.mem_cons, List.not_mem_nil, or_false] at hw
  rcases hw with rfl | rfl | rfl | rfl <;> decide

theorem witness_IgnoredOperandWordsDoNotMatter : decode ⟨3, 5, 1, 2⟩ = .ok (.cancelAll 5) ∧
    (⟨3, 5, 8, 9⟩ : Request).cmd = (⟨3, 5, 1, 2⟩ : Request).cmd ∧
    (1 ≤ (Instr.cancelAll 5).operandWords → (⟨3, 5, 8, 9⟩ : Request).arg0 = (⟨3, 5, 1, 2⟩ : Request).arg0) ∧
    ¬ 2 ≤ (Instr.cancelAll 5).operandWords ∧ ¬ 3 ≤ (Instr.cancelAll 5).operandWords :=
  ⟨rfl, rfl, fun _ => rfl, by decide, by decide⟩

theorem witness_DeadlineIsTheLowBitsOfItsOperand : mixed.timeWidth ≤ 32 ∧
    (0x1FF : Word).toNat % 2 ^ mixed.timeWidth = (0xFF : Word).toNat % 2 ^ mixed.timeWidth ∧
    mixed.freeSlots.head? = some 3 := by decide

theorem witness_AssembledLinesAreLegalCommands :
    (Line.readSlot 255).request? = some ⟨0x0000FF09, 0, 0, 0⟩ ∧ (Line.readSlot 256).request? = none ∧
    (Line.writeCtrl 1).request? = some ⟨0x0001000B, 0, 0, 0⟩ ∧ (Line.writeCtrl 2).request? = none :=
  ⟨rfl, rfl, rfl, rfl⟩

theorem witness_StepRunsTheDecodedInstruction :
    (choosing mixed [sent 6 0 0 0, .tick]).inputs = .command .normal ⟨6, 0, 0, 0⟩ :: [.tick] ∧
    decode ⟨6, 0, 0, 0⟩ = .ok .runNext := ⟨rfl, rfl⟩

theorem witness_UnchosenStepIsATick : State.reset.inputs = [] := rfl

theorem witness_EveryStepAnswersAndEveryCommandGetsAResponse :
    (choosing one [sent 0 0 0 0]).inputs = .command .normal ⟨0, 0, 0, 0⟩ :: [] ∧
    (∀ who r rest, (choosing one [.reset]).inputs ≠ .command who r :: rest) :=
  ⟨rfl, fun _ _ _ h => by cases h⟩

theorem witness_FailedCommandChangesNothing : let s := choosing one [sent 6 0 0 0]
    step s = .next (stepped s) ∧ (stepped s).response = bad .noneDue ∧ Status.noneDue ≠ .ok :=
  ⟨rfl, by decide, by decide⟩

/-- One witness for the hypothesis; the six statuses all occur. -/
theorem witness_StatusIsDecidedByItsCause :
    (choosing one [sent 7 0 0 0]).inputs = .command .normal ⟨7, 0, 0, 0⟩ :: [] ∧
    (stepped (choosing one [sent 7 0 0 0])).response = ok 0 0 0 0 0 ∧
    (stepped (choosing one [sent 0xC 0 0 0])).response = bad .illegalCommand ∧
    (stepped (choosing one [sent 0x809 0 0 0])).response = bad .badSlot ∧
    (stepped (choosing twins [sent 1 9 0 0])).response = bad .capacityExceeded ∧
    (stepped (choosing one [sent 2 1 0 0])).response = bad .notFound ∧
    (stepped (choosing one [sent 6 0 0 0])).response = bad .noneDue := ⟨rfl, by decide⟩

theorem witness_TickAdvancesTimeAndMatches : one.timeWidth ≤ 32 ∧
    (choosing { one with now := 0xFFFFFFFF, cmpValue := 0 } [.tick]).inputs = .tick :: [] ∧
    exec .maintain one = .next (did .maintain one) ∧ (choosing one [.reset]).inputs = .reset :: [] :=
  ⟨by decide, rfl, rfl, rfl⟩

/-- The next match, and the one after a whole turn of time, at `TW = 2`. -/
theorem witness_ArmedTimerMatchesWhenTimeReachesIt :
    let s := choosing { holding ⟨2, 1, 1⟩ [ev 3 0 0 0] 1 3 with now := 2 } [.tick, .reset]
    let u := choosing { holding ⟨2, 1, 1⟩ [ev 3 0 0 0] 1 3 with now := 3 } [.tick, .tick, .tick, .tick]
    (s.timeWidth ≤ 32 ∧ s.cmpArmed = true ∧ 1 ≤ 2 ^ s.timeWidth ∧
      trunc s.timeWidth (s.now + BitVec.ofNat 32 1) = s.cmpValue ∧
      s.inputs = List.replicate 1 .tick ++ [.reset]) ∧
    (u.timeWidth ≤ 32 ∧ u.cmpArmed = true ∧ 4 ≤ 2 ^ u.timeWidth ∧
      trunc u.timeWidth (u.now + BitVec.ofNat 32 4) = u.cmpValue ∧
      u.inputs = List.replicate 4 .tick ++ []) := by decide

theorem witness_RawCounterIsExtendedExactly : let s := choosing { mixed with now := 0xFF } [.tick]
    1 ≤ s.rawWidth ∧ s.rawWidth < s.timeWidth ∧ s.timeWidth ≤ 32 ∧ s.now.toNat < 2 ^ s.timeWidth ∧
    s.inputs = .tick :: [] := by decide

theorem witness_ResetClearsEveryElement : (choosing mixed [.reset, .tick]).inputs = .reset :: [.tick] := rfl

theorem witness_ResetStateSatisfiesTheInvariants : (⟨2, 1, 1⟩ : Params).Legal ∧
    (⟨32, 31, 256⟩ : Params).Legal ∧ ¬ (⟨32, 32, 8⟩ : Params).Legal := by decide

theorem witness_ReadTimeReturnsTime : State.reset.rawWidth ≤ 32 := by decide

theorem witness_ScheduleAddsOneEvent :
    (∀ i, i < twins.nslot → (twins.slot i).valid = true) ∧
    (3 < mixed.nslot ∧ (mixed.slot 3).valid = false ∧ ∀ i, i < 3 → (mixed.slot i).valid = true) := by decide

theorem witness_CancelRemovesOneEvent :
    (∀ i, i < mixed.nslot → (mixed.slot i).valid = true → (mixed.slot i).seq ≠ 3) ∧
    ((mixed.slot 2).valid = true ∧ (mixed.slot 2).seq = 2 ∧
      ∀ i, i < 2 → (mixed.slot i).valid = true → (mixed.slot i).seq ≠ 2) := by decide

theorem witness_CancelAllRemovesEveryTaggedEvent : five.nslot ≤ 256 ∧
    (State.resetWith ⟨32, 16, 256⟩).nslot ≤ 256 := ⟨by decide, (List.length_replicate (n := 256)).le⟩

theorem witness_MaintainProgramsTheTimer : State.reset.select State.reset.pend = none ∧
    mixed.select mixed.pend = some 0 := by decide

theorem witness_ServiceLatchesTheDueEvents : mixed.nslot ≤ 256 := by decide

theorem witness_RunNextPopsOneLatchedEvent :
    (∀ i, (one.slot i).valid = true → (one.slot i).due = false) ∧
    ((mixed.slot 2).valid = true ∧ (mixed.slot 2).due = true ∧ mixed.nslot ≤ 256) ∧ mixed.TimerInv := by
  refine ⟨fun i h => ?_, by decide, by decide⟩
  have hi : i < one.nslot := by
    by_contra hn
    rw [State.slot, List.getD_eq_default _ _ (Nat.le_of_not_lt hn)] at h
    cases h
  have hall : ∀ j, j < one.nslot → (one.slot j).due = false := by decide
  exact hall i hi

theorem witness_ReadStatusReportsTheState : mixed.nslot ≤ 256 := by decide

theorem witness_ReadSlotReportsTheSlot : one.nslot ≤ (8 : BitVec 8).toNat ∧
    (7 : BitVec 8).toNat < one.nslot ∧ one.SlotInv ∧ (one.slot (7 : BitVec 8).toNat).valid = false ∧
    (encode (.readSlot 0xFF)).cmd.toNat = 9 + 256 * (0xFF : BitVec 8).toNat := by decide

theorem witness_WriteCtrlWritesTheEnable :
    (encode (.writeCtrl 1)).cmd.toNat = 11 + 65536 * (1 : BitVec 8).toNat ∧ (1 : BitVec 8).toNat ≤ 1 ∧
    (0x0002000B : Word).toNat = 11 + 65536 * (2 : BitVec 8).toNat ∧ 2 ≤ (2 : BitVec 8).toNat := by decide

theorem witness_CountParamCountsLiveEvents : five.nslot ≤ 256 := by decide

theorem witness_AccessTableIsKept : exec .service mixed = .next (did .service mixed) ∧
    exec .readTime mixed = .next (did .readTime mixed) ∧ Instr.readTime.eventSet = false ∧
    Instr.maintain.eventSet = false := ⟨rfl, rfl, rfl, rfl⟩

theorem witness_ReadOnlyCommandsHaveNoSideEffect : (Instr.readSlot 8).readOnly = true ∧
    exec (.readSlot 8) one = .next (did (.readSlot 8) one) := ⟨rfl, rfl⟩

theorem witness_MaintainIsIdempotentAndMovesNoArmedTimer : exec .maintain mixed = .next (did .maintain mixed) ∧
    mixed.TimerInv := ⟨rfl, by decide⟩

theorem witness_SecondServiceLatchesNothing : exec .service mixed = .next (did .service mixed) ∧
    1 ∈ (did .service mixed).pend := ⟨rfl, by decide⟩

theorem witness_IrqPendingHasTwoSettersAndTwoClearers :
    (let s := choosing mixed [sent 5 0 0 0];
      step s = .next (stepped s) ∧ s.irqPending = true ∧ (stepped s).irqPending = false) ∧
    (let s := { one with now := 99 };
      step s = .next (stepped s) ∧ s.irqPending = false ∧ (stepped s).irqPending = true) ∧
    (let s := choosing { mixed with irqPending := false } [sent 4 0 0 0];
      step s = .next (stepped s) ∧ s.irqPending = false ∧ (stepped s).irqPending = true) :=
  ⟨⟨rfl, by decide⟩, ⟨rfl, by decide⟩, ⟨rfl, by decide⟩⟩

theorem witness_OnlyTicksAndResetMoveTime : late.timeWidth ≤ 32 ∧ step late = .next (stepped late) :=
  ⟨by decide, rfl⟩

theorem witness_OnlySuccessfulScheduleAdvancesSeqNext : let s := choosing one [sent 1 9 0 0]
    step s = .next (stepped s) ∧ (fetch s).1 ≠ .reset ∧ (stepped s).seqNext ≠ s.seqNext :=
  ⟨rfl, by decide, by decide⟩

theorem witness_ParametersNeverChange : step (choosing mixed [.reset]) =
    .next (stepped (choosing mixed [.reset])) := rfl

theorem witness_IssuerIdentityHasNoEffect : step { mixed with inputs := .command .normal ⟨5, 0, 0, 0⟩ :: [] } =
    .next (stepped (choosing mixed [sent 5 0 0 0])) := rfl

theorem witness_MaskingLosesNothing : step { one with now := 99 } = .next (stepped { one with now := 99 }) ∧
    (stepped { one with now := 99 }).irqPending = true := ⟨rfl, by decide⟩

theorem witness_DutifulIssuersDispatchInNormalContext :
    (let s := choosing mixed [sent 6 0 0 0];
      dutiful (fetch s).1 = true ∧ step s = .next (stepped s) ∧ inputInstr (fetch s).1 = some .runNext) ∧
    (let s := choosing mixed [.command .interrupt ⟨5, 0, 0, 0⟩];
      dutiful (fetch s).1 = true ∧ step s = .next (stepped s) ∧ s.irqPending = true ∧
        (stepped s).irqPending = false) :=
  ⟨⟨by decide, rfl, by decide⟩, ⟨by decide, rfl, by decide⟩⟩

theorem witness_BeforeIsTheUpperHalfOfTheDifference : (1 ≤ 8 ∧ 8 ≤ 32) ∧ (255 : Word).toNat < 2 ^ 8 ∧
    ((128 : Word).toNat + 2 ^ 8 - (0 : Word).toNat) % 2 ^ 8 = 2 ^ (8 - 1) ∧ (127 : Word) ≠ 0 ∧
    ((127 : Word).toNat + 2 ^ 8 - (0 : Word).toNat) % 2 ^ 8 ≠ 2 ^ (8 - 1) := by decide

theorem witness_DueWindowIsHalfTheRing : 1 ≤ 8 ∧ 8 ≤ 32 ∧ 0 < 2 ^ 8 ∧ 128 < 2 ^ 8 ∧ 129 < 2 ^ 8 ∧
    255 < 2 ^ 8 := by decide

theorem witness_DueInsideTheHorizonMeansReached : 2 ≤ mixed.timeWidth ∧ mixed.timeWidth ≤ 32 ∧
    mixed.InHorizon ∧ 0 ∈ mixed.live ∧ 1 ∈ mixed.live := by decide

theorem witness_TickMakesTheNextDeadlineDue : let s := { mixed with now := 255 }
    2 ≤ s.timeWidth ∧ s.timeWidth ≤ 32 ∧ (fetch s).1 = .tick ∧ step s = .next (stepped s) :=
  ⟨by decide, by decide, rfl, rfl⟩

theorem witness_SelectReturnsTheLeastEvent : 1 ≤ mixed.timeWidth ∧ mixed.timeWidth ≤ 32 ∧ mixed.WidthInv ∧
    mixed.DeadlinesFrom 10 [0, 1, 2] ∧ mixed.SeqsFrom 0 [0, 1, 2] ∧ mixed.select [0, 1, 2] = some 2 := by
  decide

theorem witness_EqualDeadlinesFireInScheduleOrder : 1 ≤ twins.timeWidth ∧ twins.timeWidth ≤ 32 ∧
    twins.WidthInv ∧ twins.DeadlinesFrom 5 twins.ready ∧ twins.SeqsFrom 1 twins.ready ∧ 1 ∈ twins.ready ∧
    0 ∈ twins.ready ∧ (twins.slot 1).deadline = (twins.slot 0).deadline ∧
    sdiff 32 (twins.slot 1).seq (twins.slot 0).seq < 0 ∧
    exec .runNext twins = .next (did .runNext twins) := by
  refine ⟨by decide, by decide, by decide, by decide, by decide, by decide, by decide, by decide, by decide,
    rfl⟩

theorem witness_EqualDeadlinesAreLatchedTogether : let s := { five with now := 50 }
    1 ∈ s.pend ∧ 3 ∈ s.pend ∧ (s.slot 1).deadline = (s.slot 3).deadline ∧
    exec .service s = .next (did .service s) := ⟨by decide, by decide, by decide, rfl⟩

theorem witness_EveryStepKeepsTheInvariant : mixed.Inv ∧ late.Inv ∧ twins.Inv ∧
    step (choosing mixed [sent 5 0 0 0]) = .next (stepped (choosing mixed [sent 5 0 0 0])) :=
  ⟨by decide, by decide, by decide, rfl⟩

theorem witness_EveryMutationArmsTheTimer : (Instr.schedule 9 0 0).eventSet = true ∧
    exec (.schedule 9 0 0) one = .next (did (.schedule 9 0 0) one) ∧
    (did (.schedule 9 0 0) one).response = ok 1 0 0 0 0 ∧ exec .maintain one = .next (did .maintain one) ∧
    (did .maintain one).response = ok 0 0 0 0 0 := ⟨rfl, rfl, by decide, rfl, by decide⟩

/-- A tick on which the nearest deadline matches, and a command. -/
theorem witness_NoDueEventIsLeftWithoutAnInterrupt :
    (let s := { one with now := 99 };
      s.Inv ∧ s.IrqInv ∧ s.InHorizon ∧ (stepped s).InHorizon ∧ step s = .next (stepped s) ∧
        (stepped s).isDue 100 = true) ∧
    (let s := choosing mixed [sent 6 0 0 0];
      s.Inv ∧ s.IrqInv ∧ s.InHorizon ∧ (stepped s).InHorizon ∧ step s = .next (stepped s)) :=
  ⟨⟨by decide, by decide, by decide, by decide, rfl, by decide⟩,
    ⟨by decide, by decide, by decide, by decide, rfl⟩⟩

/-- A run of a SCHEDULE and a tick at `TW = 8`. -/
theorem witness_RunsInsideTheHorizonMissNoEvent : let ins := [sent 1 1 5 6, .tick]
    narrow.Legal ∧ (∀ j, j ≤ 2 → ∀ u, core.run j { State.resetWith narrow with inputs := ins } = .next u →
      State.InHorizon u) ∧
    ∃ t, core.run 2 { State.resetWith narrow with inputs := ins } = .next t ∧ State.irqPending t = true := by
  refine ⟨by decide, ?_, _, rfl, by decide⟩
  intro j hj u hu
  obtain rfl | rfl | rfl : j = 0 ∨ j = 1 ∨ j = 2 := by omega
  all_goals
    cases hu
    decide

/-- The new deadline is nearer; it is not; and nothing was pending. -/
theorem witness_ScheduleReprogramsOnlyForANearerDeadline :
    (one.Inv ∧ one.freeSlots ≠ [] ∧ one.DeadlinesFrom 0 one.pend ∧
      offset one.timeWidth 0 (trunc one.timeWidth 9) < 2 ^ (one.timeWidth - 1) ∧
      exec (.schedule 9 0 0) one = .next (did (.schedule 9 0 0) one) ∧
      before one.timeWidth (trunc one.timeWidth 9) one.cmpValue = true) ∧
    (offset one.timeWidth 0 (trunc one.timeWidth 100) < 2 ^ (one.timeWidth - 1) ∧
      exec (.schedule 100 0 0) one = .next (did (.schedule 100 0 0) one) ∧ one.cmpArmed = true ∧
      before one.timeWidth (trunc one.timeWidth 100) one.cmpValue = false) ∧
    (State.reset.Inv ∧ State.reset.freeSlots ≠ [] ∧ State.reset.DeadlinesFrom 0 State.reset.pend ∧
      exec (.schedule 9 0 0) State.reset = .next (did (.schedule 9 0 0) State.reset)) :=
  ⟨⟨by decide, by decide, by decide, by decide, rfl, by decide⟩, ⟨by decide, rfl, by decide, by decide⟩,
    ⟨by decide, by decide, by decide, rfl⟩⟩

theorem witness_HandlesStayUnique : let s := choosing mixed [sent 1 9 0 0]
    s.HandlesUnique ∧ step s = .next (stepped s) ∧ (stepped s).HandleDead (stepped s).seqNext :=
  ⟨by decide, rfl, by decide⟩

theorem witness_CancelledOrFiredHandleIsDead : mixed.HandlesUnique ∧
    exec (.cancel 1) mixed = .next (did (.cancel 1) mixed) ∧
    exec .runNext mixed = .next (did .runNext mixed) ∧ (did .runNext mixed).response = ok 0xC3 3 2 10 2 :=
  ⟨by decide, rfl, rfl, by decide⟩

/-- Handle 3 is dead in `mixed`; after a tick RUN_NEXT answers OK. -/
theorem witness_DeadHandleNeverFires : let s := choosing mixed [.tick, sent 6 0 0 0]
    s.HandleDead 3 ∧ (∀ j, j < 1 → ∀ v, core.run j s = .next v → State.seqNext v = 3 →
      ∀ d cb p, inputInstr (fetch v).1 ≠ some (.schedule d cb p)) ∧
    core.run 1 s = .next (stepped s) ∧ inputInstr (fetch (stepped s)).1 = some .runNext ∧
    step (stepped s) = .next (stepped (stepped s)) ∧
    (stepped (stepped s)).response = ok 0xC3 3 2 10 2 ∧ Status.ok = .ok := by
  refine ⟨by decide, ?_, rfl, by decide, rfl, by decide, rfl⟩
  intro j hj v hv _ d cb p h
  obtain rfl : j = 0 := by omega
  cases hv
  cases h

/-- After CANCEL_ALL 1 and a tick, RUN_NEXT answers OK with another event. -/
theorem witness_CancelledTagNeverFires : let s := choosing mixed [.tick]
    exec (.cancelAll 1) s = .next (did (.cancelAll 1) s) ∧
    (∀ j, j < 1 → ∀ v, core.run j (did (.cancelAll 1) s) = .next v →
      ∀ d cb, inputInstr (fetch v).1 ≠ some (.schedule d cb 1)) ∧
    core.run 1 (did (.cancelAll 1) s) = .next (stepped (did (.cancelAll 1) s)) ∧
    exec .runNext (stepped (did (.cancelAll 1) s)) =
      .next (did .runNext (stepped (did (.cancelAll 1) s))) ∧
    (did .runNext (stepped (did (.cancelAll 1) s))).response = ok 0xC3 3 2 10 2 := by
  refine ⟨rfl, ?_, rfl, rfl, by decide⟩
  intro j hj v hv d cb h
  obtain rfl : j = 0 := by omega
  cases hv
  cases h

end Sys2Proof.Machine.Tests
end

/-!
PROOFS. The family 00_scope.md: what a failing step leaves (R12), the parameters (R7), and the slot sets
(R13).
-/
namespace Sys2Proof.Machine

/-! ### The slot sets -/

/-- A second property divides a set of slots in two: the counts add up. -/
theorem length_indices_split (s : State) (q r : Slot → Bool) : (s.indices q).length =
    (s.indices (fun x => q x && r x)).length + (s.indices (fun x => q x && !r x)).length := by
  rw [← filter_indices s q r, ← filter_indices s q (fun x => !r x)]
  exact List.length_eq_length_filter_add _

/-- LIVE is divided by `DUE`. -/
theorem length_live (s : State) : s.live.length = s.pend.length + s.ready.length :=
  (length_indices_split s (fun x => x.valid) (fun x => x.due)).trans (Nat.add_comm _ _)

/-- All slots are divided by `VALID`. -/
theorem length_live_add_length_freeSlots (s : State) :
    s.nslot = s.live.length + s.freeSlots.length := by
  have hall : (s.indices (fun _ => true)).length = s.nslot := by simp [State.indices]
  rw [← hall]
  exact length_indices_split s (fun _ => true) (fun x => x.valid)

theorem mem_live_iff_pend_or_ready {s : State} {i : Nat} : i ∈ s.live ↔ i ∈ s.pend ∨ i ∈ s.ready := by
  rw [mem_live, mem_pend, mem_ready]
  cases (s.slot i).due <;> simp

theorem not_mem_ready_of_mem_pend {s : State} {i : Nat} (hp : i ∈ s.pend) : i ∉ s.ready := by
  intro hr
  obtain ⟨-, hdue⟩ := mem_pend.1 hp
  obtain ⟨-, hdue'⟩ := mem_ready.1 hr
  rw [hdue] at hdue'
  cases hdue'

theorem mem_freeSlots_iff_not_live {s : State} {i : Nat} :
    i ∈ s.freeSlots ↔ i < s.nslot ∧ i ∉ s.live := by
  rw [mem_freeSlots, mem_live, Bool.not_eq_true]

/-- Settles O51: `DUE` divides LIVE and `VALID` divides the slots. -/
theorem slotSetsPartitionTheSlots : Obligations.SlotSetsPartitionTheSlots := fun s =>
  ⟨length_live s, length_live_add_length_freeSlots s, fun _ => mem_live_iff_pend_or_ready,
    fun _ ⟨hp, hr⟩ => not_mem_ready_of_mem_pend hp hr, fun _ => mem_freeSlots_iff_not_live⟩

/-! ### The parameters -/

theorem params_congr {s t : State} (hw : t.timeWidth = s.timeWidth) (hr : t.rawWidth = s.rawWidth)
    (hn : t.nslot = s.nslot) : t.params = s.params := by
  simp only [State.params, hw, hr, hn]

@[simp] theorem fetch_params (s : State) : (fetch s).2.params = s.params :=
  params_congr (fetch_timeWidth s) (fetch_rawWidth s) (fetch_nslot s)

@[simp] theorem tick_params (s : State) : (tick s).params = s.params :=
  params_congr (tick_timeWidth s) (tick_rawWidth s) (congrArg List.length (tick_slots s))

/-- Reset makes as many free slots as there were slots (R107). -/
@[simp] theorem applyReset_params (s : State) : (applyReset s).params = s.params :=
  params_congr rfl rfl (List.length_replicate ..)

@[simp] theorem failed_params (s : State) (code : Status) : (s.failed code).params = s.params := rfl

@[simp] theorem answered_params (s : State) (r0 r1 r2 r3 r4 : Word) :
    (s.answered r0 r1 r2 r3 r4).params = s.params := rfl

@[simp] theorem arm_params (s : State) : s.arm.params = s.params :=
  params_congr (arm_timeWidth s) (arm_rawWidth s) (arm_nslot s)

@[simp] theorem freeSlot_params (s : State) (i : Nat) : (s.freeSlot i).params = s.params :=
  params_congr rfl rfl (freeSlot_nslot s i)

@[simp] theorem addEvent_params (s : State) (f : Nat) (d cb p : Word) :
    (addEvent s f d cb p).params = s.params :=
  params_congr rfl rfl (addEvent_nslot s f d cb p)

@[simp] theorem freeTagged_params (s : State) (p : Word) : (freeTagged s p).params = s.params :=
  params_congr rfl rfl (freeTagged_nslot s p)

@[simp] theorem latchDue_params (s : State) : (latchDue s).params = s.params :=
  params_congr rfl rfl (latchDue_nslot s)

/-- A command writes the slot array in place, and no parameter. -/
theorem exec_params {i : Instr} {s t : State} (h : exec i s = .next t) : t.params = s.params := by
  cases exec_inv h with
  | controlled c => rfl
  | _ => simp only [failed_params, answered_params, arm_params, freeSlot_params, addEvent_params,
      freeTagged_params, latchDue_params]

/-- Settles O38, by the cases of a step. -/
theorem parametersNeverChange : Obligations.ParametersNeverChange := by
  intro s t h
  rw [← fetch_params s]
  rcases step_cases h with ⟨-, rfl⟩ | ⟨-, rfl⟩ | ⟨-, -, -, -, -, rfl⟩ | ⟨-, -, i, -, -, hx⟩
  · exact tick_params _
  · exact applyReset_params _
  · exact failed_params _ _
  · exact exec_params hx

/-! ### A failing step -/

/-- A command answers OK, or it leaves what `raise` leaves (R12). -/
theorem exec_ok_or_failed {i : Instr} {s t : State} (h : exec i s = .next t) :
    (∃ r, t.response = some r ∧ r.status = .ok) ∨ ∃ code, t = s.failed code := by
  cases exec_inv h with
  | capacityExceeded | notFound | noneDue | badSlot => exact .inr ⟨_, rfl⟩
  | _ => exact .inl ⟨_, answered_response .., rfl⟩

/-- A step whose response has a status other than OK leaves what `raise` leaves after the fetch. -/
theorem step_eq_failed {s t : State} {r : Response} (h : step s = .next t) (hr : t.response = some r)
    (hs : r.status ≠ .ok) : ∃ code, t = (fetch s).2.failed code := by
  rcases step_cases h with ⟨-, rfl⟩ | ⟨-, rfl⟩ | ⟨-, -, -, -, -, rfl⟩ | ⟨-, -, i, -, -, hx⟩
  · rw [tick_response, fetch_response] at hr
    cases hr
  · have hnone : (applyReset (fetch s).2).response = none := fetch_response s
    rw [hnone] at hr
    cases hr
  · exact ⟨_, rfl⟩
  · rcases exec_ok_or_failed hx with ⟨q, hq, hok⟩ | hfailed
    · rw [hq] at hr
      cases hr
      exact absurd hok hs
    · exact hfailed

/-- What `raise` leaves after the fetch is the TES from before it (R12, R96). -/
theorem sameTes_failed_fetch (s : State) (code : Status) : s.SameTes ((fetch s).2.failed code) := by
  simp only [State.SameTes, failed_timeWidth, failed_rawWidth, failed_now, failed_slots,
    failed_seqNext, failed_cmpArmed, failed_cmpValue, failed_irqPending, failed_irqEn,
    fetch_timeWidth, fetch_rawWidth, fetch_now, fetch_slots, fetch_seqNext, fetch_cmpArmed,
    fetch_cmpValue, fetch_irqPending, fetch_irqEn, and_self]

/-- Settles O13: such a step leaves what `raise` leaves. -/
theorem failedCommandChangesNothing : Obligations.FailedCommandChangesNothing := by
  intro s t r h hr hs
  obtain ⟨code, rfl⟩ := step_eq_failed h hr hs
  obtain rfl : Response.mk code 0 0 0 0 0 = r := Option.some.inj hr
  exact ⟨sameTes_failed_fetch s code, rfl, rfl, rfl, rfl, rfl⟩

end Sys2Proof.Machine

/-!
PROOFS. The family 10_state.md: what each command and each step leaves unwritten (R31, R20, R24, R27),
the invariants of R22, R33 and R34, and runs from reset inside the horizon of R112.
-/
namespace Sys2Proof.Machine

/-! ### What a command leaves (R31) -/

theorem exec_now {i : Instr} {s t : State} (h : exec i s = .next t) : t.now = s.now := by
  cases exec_inv h with
  | controlled c => rfl
  | _ => simp only [failed_now, answered_now, arm_now, addEvent_now, freeSlot_now, freeTagged_now,
      latchDue_now]

/-- Only WRITE_CTRL writes `IRQ_EN`. -/
theorem exec_irqEn {i : Instr} {s t : State} (h : exec i s = .next t) (hi : ∀ c, i ≠ .writeCtrl c) :
    t.irqEn = s.irqEn := by
  cases exec_inv h with
  | controlled c => exact absurd rfl (hi c)
  | _ => simp only [failed_irqEn, answered_irqEn, arm_irqEn, addEvent_irqEn, freeSlot_irqEn,
      freeTagged_irqEn, latchDue_irqEn]

/-- Only a SCHEDULE that finds a free slot writes `SEQ_NEXT` (R24). -/
theorem exec_seqNext_or_scheduled {i : Instr} {s t : State} (h : exec i s = .next t) :
    t.seqNext = s.seqNext ∨ ∃ d cb p f, i = .schedule d cb p ∧ s.freeSlots.head? = some f ∧
      t = (addEvent s f d cb p).arm.answered s.seqNext 0 0 0 0 := by
  cases exec_inv h with
  | scheduled d cb p f hf => exact .inr ⟨d, cb, p, f, rfl, hf, rfl⟩
  | controlled c => exact .inl rfl
  | _ => left; simp only [failed_seqNext, answered_seqNext, arm_seqNext, freeSlot_seqNext,
      freeTagged_seqNext, latchDue_seqNext]

@[simp] theorem slot_failed (s : State) (code : Status) (j : Nat) : (s.failed code).slot j = s.slot j :=
  rfl

@[simp] theorem slot_answered (s : State) (r0 r1 r2 r3 r4 : Word) (j : Nat) :
    (s.answered r0 r1 r2 r3 r4).slot j = s.slot j := rfl

/-- SERVICE writes no field of a slot but `DUE` (R81). -/
theorem slot_latchDue_except_due (s : State) (k : Nat) :
    { (latchDue s).slot k with due := (s.slot k).due } = s.slot k := by
  rw [slot_latchDue]
  split <;> rfl

/-! ### What a command leaves in the timer and the interrupt -/

/-- The slots, the timer and `IRQ_PENDING` are the same in both states. -/
def State.SameEvents (s t : State) : Prop :=
  t.slots = s.slots ∧ t.cmpArmed = s.cmpArmed ∧ t.cmpValue = s.cmpValue ∧ t.irqPending = s.irqPending

theorem sameEvents_failed (s : State) (code : Status) : s.SameEvents (s.failed code) :=
  ⟨rfl, rfl, rfl, rfl⟩

/-- The command `i` ended with ARM and left `t`. The `IRQ_PENDING` that ARM found is the one from before the
command, or 0 where SERVICE has acknowledged it (R81). -/
def State.ArmedBy (s : State) (i : Instr) (t : State) : Prop :=
  ∃ pending, t.Programmed s.cmpValue pending ∧
    (pending = s.irqPending ∨ (pending = false ∧ i = .service))

/-- A command fails, or writes none of the event set and its timer, or is an event-set command or MAINTAIN
and ends with ARM (R31, R73). -/
theorem exec_failed_or_sameEvents_or_armed {i : Instr} {s t : State} (h : exec i s = .next t) :
    (∃ code, code ≠ .ok ∧ t = s.failed code) ∨
    ((i.eventSet = false ∧ i ≠ .maintain) ∧ s.SameEvents t) ∨
    ((i.eventSet = true ∨ i = .maintain) ∧ s.ArmedBy i t) := by
  cases exec_inv h with
  | capacityExceeded | notFound | noneDue | badSlot =>
    exact .inl ⟨_, Status.noConfusion, rfl⟩
  | scheduled | cancelled | cancelledAll | popped =>
    exact .inr (.inr ⟨.inl rfl, _, armed_answered_programmed .., .inl rfl⟩)
  | maintained => exact .inr (.inr ⟨.inr rfl, _, armed_answered_programmed .., .inl rfl⟩)
  | serviced => exact .inr (.inr ⟨.inl rfl, _, armed_answered_programmed .., .inr ⟨rfl, rfl⟩⟩)
  | time | status | slot | counted | controlled =>
    exact .inr (.inl ⟨⟨rfl, Instr.noConfusion⟩, rfl, rfl, rfl, rfl⟩)

/-- A command outside the event set that is not MAINTAIN leaves the slots and the timer. -/
theorem exec_sameEvents {i : Instr} {s t : State} (h : exec i s = .next t) (hi : i.eventSet = false)
    (hm : i ≠ .maintain) : s.SameEvents t := by
  rcases exec_failed_or_sameEvents_or_armed h with ⟨code, -, rfl⟩ | ⟨-, hs⟩ | ⟨he | he, -⟩
  · exact sameEvents_failed s code
  · exact hs
  · rw [hi] at he
    cases he
  · exact absurd he hm

/-- MAINTAIN writes the timer, and no slot. -/
theorem exec_slots {i : Instr} {s t : State} (h : exec i s = .next t) (hi : i.eventSet = false) :
    t.slots = s.slots := by
  by_cases hm : i = .maintain
  · subst hm
    cases exec_inv h with
    | maintained => exact arm_slots s
  · exact (exec_sameEvents h hi hm).1

/-- Settles O31: each column of the table is one of the lemmas above. -/
theorem accessTableIsKept : Obligations.AccessTableIsKept := by
  intro i s t h
  refine ⟨exec_now h, exec_params h, (exec_port h).1, ?_, exec_irqEn h, exec_slots h, ?_,
    fun hi hm => (exec_sameEvents h hi hm).2⟩
  · intro hi
    rcases exec_seqNext_or_scheduled h with hq | ⟨d, cb, p, -, rfl, -⟩
    · exact hq
    · exact absurd rfl (hi d cb p)
  · rintro rfl k
    cases exec_inv h with
    | serviced =>
      rw [slot_answered, slot_arm]
      exact slot_latchDue_except_due s k

/-- Settles O53: an OK answer of such a command ends with ARM. -/
theorem everyMutationArmsTheTimer : Obligations.EveryMutationArmsTheTimer := by
  intro i s t r hi h hr hok
  rcases exec_failed_or_sameEvents_or_armed h with ⟨code, hc, rfl⟩ | ⟨⟨he, hm⟩, -⟩ |
    ⟨-, pending, hp, -⟩
  · obtain rfl : Response.mk code 0 0 0 0 0 = r := Option.some.inj hr
    exact absurd hok hc
  · simp [he, hm] at hi
  · exact timerInv_of_programmed hp

/-! ### What a step leaves -/

/-- Settles O40: the fetch empties the response port before anything reads the state. -/
theorem earlierResponsesAreNotVisible : Obligations.EarlierResponsesAreNotVisible := by
  intro s last who
  have hf : fetch { s with response := last, serving := who } = fetch s := by
    unfold fetch
    cases s.inputs <;> rfl
  simp only [step, hf]

theorem inputInstr_of_decode {who : Issuer} {r : Request} {i : Instr} (h : decode r = .ok i) :
    inputInstr (.command who r) = some i := by
  simp only [inputInstr, h]

/-- Settles O36, by the cases of a step. -/
theorem onlyTicksAndResetMoveTime : Obligations.OnlyTicksAndResetMoveTime := by
  intro s t hw h
  rcases step_cases h with ⟨hf, rfl⟩ | ⟨hf, rfl⟩ | ⟨who, r, e, hf, -, rfl⟩ | ⟨who, r, i, hf, -, hx⟩
  · refine .inl ⟨hf, ?_⟩
    rw [tick_now, fetch_timeWidth, fetch_now, trunc_succ_toNat hw]
  · exact .inr (.inl ⟨hf, rfl⟩)
  · exact .inr (.inr ⟨who, r, hf, fetch_now s⟩)
  · exact .inr (.inr ⟨who, r, hf, (exec_now hx).trans (fetch_now s)⟩)

/-- Settles O37: the step was a SCHEDULE that filled the lowest free slot. -/
theorem onlySuccessfulScheduleAdvancesSeqNext : Obligations.OnlySuccessfulScheduleAdvancesSeqNext := by
  intro s t h hreset
  rcases step_cases h with ⟨-, rfl⟩ | ⟨hf, -⟩ | ⟨-, -, -, -, -, rfl⟩ | ⟨who, r, i, hf, hd, hx⟩
  · exact .inl (by rw [tick_seqNext, fetch_seqNext])
  · exact absurd hf hreset
  · exact .inl (fetch_seqNext s)
  · rcases exec_seqNext_or_scheduled hx with hq | ⟨d, cb, p, f, rfl, hfree, rfl⟩
    · exact .inl (hq.trans (fetch_seqNext s))
    · obtain ⟨hlt, hinv⟩ := mem_freeSlots.1 (head_mem_indices hfree)
      have hslot : ((addEvent (fetch s).2 f d cb p).arm.answered (fetch s).2.seqNext 0 0 0 0).slot f =
          newEvent (fetch s).2 d cb p := by
        rw [slot_answered, slot_arm, slot_addEvent _ hlt, if_pos rfl]
      refine .inr ⟨⟨d, cb, p, hf ▸ inputInstr_of_decode hd⟩, ?_, ?_, f, ?_, ?_, ?_⟩
      · rw [answered_seqNext, arm_seqNext, addEvent_seqNext, fetch_seqNext]
        exact BitVec.toNat_add _ _
      · rw [answered_response, fetch_seqNext]
      · rw [← fetch_slot, hinv]
      · rw [hslot]; rfl
      · rw [hslot]; exact fetch_seqNext s

/-- Settles O57: a live slot holds an earlier live event, or the one event just scheduled. -/
theorem handlesStayUnique : Obligations.HandlesStayUnique := by
  rintro s t ⟨huniq, hdead⟩ h hdead'
  refine ⟨fun i hi j hj hij => ?_, hdead'⟩
  rcases step_slot_origin h i (mem_live.1 hi) with ⟨hvi, hqi, -⟩ | ⟨-, -, -, -, hfi, hqi, -⟩ <;>
    rcases step_slot_origin h j (mem_live.1 hj) with ⟨hvj, hqj, -⟩ | ⟨-, -, -, -, hfj, hqj, -⟩ <;>
    rw [hqi, hqj] at hij
  · exact huniq i (mem_live.2 hvi) j (mem_live.2 hvj) hij
  · exact absurd hij (hdead i (mem_live.2 hvi))
  · exact absurd hij.symm (hdead j (mem_live.2 hvj))
  · exact Option.some.inj (hfi.symm.trans hfj)

/-! ### The raw counter and reset -/

theorem step_of_tick {s : State} {rest : List Input} (h : s.inputs = .tick :: rest) :
    step s = .next (tick (fetch s).2) := by
  simp only [step, fetch_cons h]

theorem step_of_reset {s : State} {rest : List Input} (h : s.inputs = .reset :: rest) :
    step s = .next (applyReset (fetch s).2) := by
  simp only [step, fetch_cons h]

/-- Counting up modulo `2^n` counts the bits from `k` up exactly when the low `k` bits wrap to 0 (R20). -/
theorem succ_mod_div_two_pow {k n : Nat} (hkn : k ≤ n) (v : Nat) : (v + 1) % 2 ^ n / 2 ^ k =
    (v / 2 ^ k + if (v + 1) % 2 ^ k = 0 then 1 else 0) % 2 ^ (n - k) := by
  have hpow : 2 ^ n = 2 ^ k * 2 ^ (n - k) := by rw [← pow_add, Nat.add_sub_cancel' hkn]
  rw [hpow, Nat.mod_mul_right_div_self, Nat.succ_div]
  simp only [Nat.dvd_iff_mod_eq_zero]

/-- Settles O17: `RAW` is a low part of a counter that counts up by one. -/
theorem rawCounterIsExtendedExactly : Obligations.RawCounterIsExtendedExactly := by
  intro s rest _ hlt hw hnow hin
  have hr : s.rawWidth ≤ 32 := by omega
  have hraw : s.raw.toNat = s.now.toNat % 2 ^ s.rawWidth := trunc_toNat hr _
  have hnow' : (tick (fetch s).2).now.toNat = (s.now.toNat + 1) % 2 ^ s.timeWidth := by
    rw [tick_now, fetch_timeWidth, fetch_now, trunc_succ_toNat hw]
  have hraw' : (tick (fetch s).2).raw.toNat = (s.now.toNat + 1) % 2 ^ s.rawWidth := by
    rw [State.raw, tick_rawWidth, fetch_rawWidth, trunc_toNat hr, hnow',
      Nat.mod_mod_of_dvd _ (Nat.pow_dvd_pow 2 hlt.le)]
  refine ⟨hraw, _, step_of_tick hin, ?_, ?_, rfl⟩
  · rw [hraw', hraw, Nat.mod_add_mod]
  · rw [hnow', hraw']
    exact succ_mod_div_two_pow hlt.le _

@[simp] theorem slot_applyReset (s : State) (i : Nat) : (applyReset s).slot i = Slot.free :=
  slot_resetWith s.params i

/-- Settles O18: the next state is the reset state of the same parameters. -/
theorem resetClearsEveryElement : Obligations.ResetClearsEveryElement := by
  intro s rest hin
  have hp := (applyReset_params (fetch s).2).trans (fetch_params s)
  have hinputs : (fetch s).2.inputs = rest := by rw [fetch_inputs, hin, List.tail_cons]
  exact ⟨_, step_of_reset hin, rfl, ⟨congrArg Params.nslot hp, slot_applyReset _⟩, rfl, ⟨rfl, rfl⟩, rfl,
    rfl, rfl, ⟨congrArg Params.timeWidth hp, congrArg Params.rawWidth hp⟩, hinputs, fetch_response s⟩

/-! ### What a step leaves in the timer and the interrupt (R27) -/

/-- What ARM leaves, with or without a pending event. -/
theorem programmed_cases {t : State} {c : Word} {p : Bool} (h : t.Programmed c p) :
    (t.nearest = none ∧ t.cmpValue = c ∧ t.irqPending = p) ∨
    (∃ d, t.nearest = some d ∧ t.cmpValue = d ∧ t.irqPending = (p || t.isDue d)) := by
  unfold State.Programmed at h
  cases hn : t.nearest with
  | none =>
    rw [hn] at h
    exact .inl ⟨rfl, h.2⟩
  | some d =>
    rw [hn] at h
    exact .inr ⟨d, rfl, h.2⟩

/-- A step is a tick, a reset, a transaction that leaves the slots, the timer and `IRQ_PENDING`, or an
event-set command or MAINTAIN that ends with ARM. -/
theorem step_tick_or_reset_or_sameEvents_or_armed {s t : State} (h : step s = .next t) :
    ((fetch s).1 = .tick ∧ t = tick (fetch s).2) ∨
    ((fetch s).1 = .reset ∧ t = applyReset (fetch s).2) ∨
    (t.now = s.now ∧ s.SameEvents t) ∨
    (∃ i, inputInstr (fetch s).1 = some i ∧ (i.eventSet = true ∨ i = .maintain) ∧ s.ArmedBy i t) := by
  have hsame : ∀ {u}, (fetch s).2.SameEvents u → s.SameEvents u := fun hu => by
    simpa only [State.SameEvents, fetch_slots, fetch_cmpArmed, fetch_cmpValue, fetch_irqPending] using hu
  rcases step_cases h with htick | hreset | ⟨-, -, -, -, -, rfl⟩ | ⟨who, r, i, hf, hd, hx⟩
  · exact .inl htick
  · exact .inr (.inl hreset)
  · exact .inr (.inr (.inl ⟨fetch_now s, hsame (sameEvents_failed _ _)⟩))
  · have hnow : t.now = s.now := (exec_now hx).trans (fetch_now s)
    rcases exec_failed_or_sameEvents_or_armed hx with ⟨code, -, rfl⟩ | ⟨-, hs⟩ | ⟨hi, harm⟩
    · exact .inr (.inr (.inl ⟨hnow, hsame (sameEvents_failed _ _)⟩))
    · exact .inr (.inr (.inl ⟨hnow, hsame hs⟩))
    · refine .inr (.inr (.inr ⟨i, hf ▸ inputInstr_of_decode hd, hi, ?_⟩))
      simpa only [State.ArmedBy, fetch_cmpValue, fetch_irqPending] using harm

/-- `IRQ_PENDING` falls only by SERVICE and reset (R27). -/
theorem step_irqPending_falls {s t : State} (h : step s = .next t) (hs : s.irqPending = true)
    (ht : t.irqPending = false) : (fetch s).1 = .reset ∨ inputInstr (fetch s).1 = some .service := by
  rcases step_tick_or_reset_or_sameEvents_or_armed h with ⟨-, rfl⟩ | ⟨hf, -⟩ | ⟨-, -, -, -, hp⟩ |
    ⟨i, hi, -, pending, hprog, rfl | ⟨-, rfl⟩⟩
  · rw [tick_irqPending, fetch_irqPending, hs] at ht
    cases ht
  · exact .inl hf
  · rw [hp, hs] at ht
    cases ht
  · rw [hs] at hprog
    rw [irqPending_of_programmed hprog] at ht
    cases ht
  · exact .inr hi

/-- `IRQ_PENDING` rises only by a compare match and by ARM's run ASAP (R27). -/
theorem step_irqPending_rises {s t : State} (h : step s = .next t) (hs : s.irqPending = false)
    (ht : t.irqPending = true) :
    ((fetch s).1 = .tick ∧ t.cmpArmed = true ∧ t.now = t.cmpValue) ∨
    (∃ i d, inputInstr (fetch s).1 = some i ∧ (i.eventSet = true ∨ i = .maintain) ∧
      t.nearest = some d ∧ t.isDue d = true) := by
  rcases step_tick_or_reset_or_sameEvents_or_armed h with ⟨hf, rfl⟩ | ⟨-, rfl⟩ | ⟨-, -, -, -, hp⟩ |
    ⟨i, hi, hset, pending, hprog, hpend⟩
  · rw [tick_irqPending, fetch_irqPending, hs, Bool.false_or, Bool.and_eq_true, beq_iff_eq] at ht
    rw [tick_cmpArmed, tick_now, tick_cmpValue]
    exact .inl ⟨hf, ht⟩
  · cases ht
  · rw [hp, hs] at ht
    cases ht
  · obtain rfl : pending = false := by
      rcases hpend with rfl | ⟨rfl, -⟩
      · exact hs
      · rfl
    rcases programmed_cases hprog with ⟨-, -, hirq⟩ | ⟨d, hd, -, hirq⟩
    · rw [hirq] at ht
      cases ht
    · exact .inr ⟨i, d, hi, hset, hd, by rw [← ht, hirq, Bool.false_or]⟩

/-- Settles O35. -/
theorem irqPendingHasTwoSettersAndTwoClearers : Obligations.IrqPendingHasTwoSettersAndTwoClearers :=
  fun _ _ h => ⟨step_irqPending_falls h, step_irqPending_rises h⟩

/-! ### What a step does to one slot -/

/-- The ways a step from `s` writes a slot: not at all, freed (R23), filled by SCHEDULE (R77), or latched
by SERVICE (R81). -/
inductive SlotChange (s : State) (x : Slot) : Slot → Prop
  | same : SlotChange s x x
  | freed : SlotChange s x Slot.free
  | filled (d cb p : Word) : SlotChange s x (newEvent s d cb p)
  | latched : x.valid = true → SlotChange s x { x with due := true }

theorem exec_slotChange {i : Instr} {s t : State} (h : exec i s = .next t) (j : Nat) :
    SlotChange s (s.slot j) (t.slot j) := by
  cases exec_inv h with
  | scheduled d cb p f hf =>
    rw [slot_answered, slot_arm, slot_addEvent _ (mem_freeSlots.1 (head_mem_indices hf)).1]
    split
    · exact .filled d cb p
    · exact .same
  | cancelled | popped =>
    rw [slot_answered, slot_arm, slot_freeSlot]
    split
    · exact .freed
    · exact .same
  | cancelledAll p =>
    rw [slot_answered, slot_arm, slot_freeTagged]
    split
    · exact .freed
    · exact .same
  | serviced =>
    rw [slot_answered, slot_arm, slot_latchDue]
    split
    · rename_i hnew
      simp only [newlyDue, Bool.and_eq_true] at hnew
      exact .latched hnew.1.1
    · exact .same
  | maintained => rw [slot_answered, slot_arm]; exact .same
  | _ => exact .same

/-- A change of a slot reads `TW` and `SEQ_NEXT`, which a new event is made from. -/
theorem SlotChange.congr {s u : State} {x y : Slot} (h : SlotChange u x y)
    (hw : u.timeWidth = s.timeWidth) (hq : u.seqNext = s.seqNext) : SlotChange s x y := by
  cases h with
  | same => exact .same
  | freed => exact .freed
  | filled d cb p =>
    rw [newEvent, hw, hq]
    exact .filled d cb p
  | latched hv => exact .latched hv

theorem step_slotChange {s t : State} (h : step s = .next t) (j : Nat) :
    SlotChange s (s.slot j) (t.slot j) := by
  rcases step_cases h with ⟨-, rfl⟩ | ⟨-, rfl⟩ | ⟨-, -, -, -, -, rfl⟩ | ⟨-, -, i, -, -, hx⟩
  · rw [slot_congr (tick_slots _), fetch_slot]
    exact .same
  · rw [slot_applyReset]
    exact .freed
  · rw [slot_failed, fetch_slot]
    exact .same
  · have hc := exec_slotChange hx j
    rw [fetch_slot] at hc
    exact hc.congr (fetch_timeWidth s) (fetch_seqNext s)

theorem SlotChange.deadline_lt {s : State} {x y : Slot} (h : SlotChange s x y) (hw : s.timeWidth ≤ 32)
    (hx : x.deadline.toNat < 2 ^ s.timeWidth) : y.deadline.toNat < 2 ^ s.timeWidth := by
  cases h with
  | same => exact hx
  | freed => exact Nat.two_pow_pos _
  | filled d cb p => exact trunc_lt hw d
  | latched _ => exact hx

/-- Slot invariants 1 and 2 of R22. -/
theorem SlotChange.slotInv {s : State} {x y : Slot} (h : SlotChange s x y)
    (hx : (x.due = true → x.valid = true) ∧ (x.valid = false → x = Slot.free)) :
    (y.due = true → y.valid = true) ∧ (y.valid = false → y = Slot.free) := by
  cases h with
  | same => exact hx
  | freed => exact ⟨Bool.noConfusion, fun _ => rfl⟩
  | filled d cb p => exact ⟨fun _ => rfl, Bool.noConfusion⟩
  | latched hv =>
    refine ⟨fun _ => hv, fun hv' => ?_⟩
    rw [hv] at hv'
    cases hv'

/-! ### The invariant (R6, R18, R22, R33) -/

theorem step_timeWidth {s t : State} (h : step s = .next t) : t.timeWidth = s.timeWidth :=
  congrArg Params.timeWidth (parametersNeverChange s t h)

/-- The nearest pending deadline is a pending slot's. -/
theorem nearest_eq_some {s : State} {d : Word} (h : s.nearest = some d) :
    ∃ b, s.select s.pend = some b ∧ b ∈ s.pend ∧ (s.slot b).deadline = d := by
  obtain ⟨b, hb, hd⟩ := Option.map_eq_some_iff.1 h
  exact ⟨b, hb, select_mem hb, hd⟩

theorem step_slotInv {s t : State} (hs : s.SlotInv) (h : step s = .next t) : t.SlotInv :=
  forall_slots.2 fun i _ => (step_slotChange h i).slotInv (slotInv_at hs i)

theorem step_deadline_lt {s t : State} (hw : s.timeWidth ≤ 32) (hs : s.WidthInv) (h : step s = .next t)
    (j : Nat) : (t.slot j).deadline.toNat < 2 ^ t.timeWidth := by
  rw [step_timeWidth h]
  exact (step_slotChange h j).deadline_lt hw (slot_deadline_lt hs j)

theorem step_now_lt {s t : State} (hw : s.timeWidth ≤ 32) (hs : s.WidthInv) (h : step s = .next t) :
    t.now.toNat < 2 ^ t.timeWidth := by
  rw [step_timeWidth h]
  rcases onlyTicksAndResetMoveTime s t hw h with ⟨-, hn⟩ | ⟨-, hn⟩ | ⟨-, -, -, hn⟩ <;> rw [hn]
  · exact Nat.mod_lt _ (Nat.two_pow_pos _)
  · exact Nat.two_pow_pos _
  · exact hs.1

/-- `CMP_VALUE` is the one before the step, 0, or a slot's deadline. -/
theorem step_cmpValue_lt {s t : State} (hw : s.timeWidth ≤ 32) (hs : s.WidthInv) (h : step s = .next t) :
    t.cmpValue.toNat < 2 ^ t.timeWidth := by
  have hcmp := hs.2.1
  rw [← step_timeWidth h] at hcmp
  rcases step_tick_or_reset_or_sameEvents_or_armed h with ⟨-, rfl⟩ | ⟨-, rfl⟩ | ⟨-, -, -, hc, -⟩ |
    ⟨i, -, -, pending, hprog, -⟩
  · rwa [tick_cmpValue, fetch_cmpValue]
  · exact Nat.two_pow_pos _
  · rwa [hc]
  · rcases programmed_cases hprog with ⟨-, hc, -⟩ | ⟨d, hd, hc, -⟩
    · rwa [hc]
    · obtain ⟨b, -, -, rfl⟩ := nearest_eq_some hd
      rw [hc]
      exact step_deadline_lt hw hs h b

theorem step_widthInv {s t : State} (hw : s.timeWidth ≤ 32) (hs : s.WidthInv) (h : step s = .next t) :
    t.WidthInv :=
  ⟨step_now_lt hw hs h, step_cmpValue_lt hw hs h, forall_slots.2 fun i _ => step_deadline_lt hw hs h i⟩

theorem pend_resetWith (p : Params) : (State.resetWith p).pend = [] :=
  indices_eq_nil fun i _ => by rw [slot_resetWith]; rfl

theorem timerInv_resetWith (p : Params) : (State.resetWith p).TimerInv := .inl ⟨rfl, pend_resetWith p⟩

theorem step_timerInv {s t : State} (hs : s.TimerInv) (h : step s = .next t) : t.TimerInv := by
  have hw := step_timeWidth h
  rcases step_tick_or_reset_or_sameEvents_or_armed h with ⟨-, rfl⟩ | ⟨-, rfl⟩ | ⟨-, hslots, ha, hc, -⟩ |
    ⟨i, -, -, pending, hprog, -⟩
  · refine timerInv_congr ?_ hw ?_ ?_ hs
    · rw [tick_slots, fetch_slots]
    · rw [tick_cmpArmed, fetch_cmpArmed]
    · rw [tick_cmpValue, fetch_cmpValue]
  · exact timerInv_resetWith (fetch s).2.params
  · exact timerInv_congr hslots hw ha hc hs
  · exact timerInv_of_programmed hprog

/-- Settles O52: each part of the invariant is kept for its own reason. -/
theorem everyStepKeepsTheInvariant : Obligations.EveryStepKeepsTheInvariant := by
  rintro s t ⟨hlegal, hwidth, hslot, htimer⟩ h
  have hw : s.timeWidth ≤ 32 := hlegal.1.2
  refine ⟨?_, step_widthInv hw hwidth h, step_slotInv hslot h, step_timerInv htimer h⟩
  rwa [parametersNeverChange s t h]

/-! ### No due event without an interrupt (R34), inside the horizon (R112) -/

/-- An event inside the horizon is due exactly when its deadline is not ahead of `NOW`. -/
theorem isDue_eq_false_iff_sdiff_pos {s : State} (h1 : 2 ≤ s.timeWidth) (h2 : s.timeWidth ≤ 32) {d : Word}
    (hd : -(s.horizon : Int) ≤ sdiff s.timeWidth d s.now) :
    s.isDue d = false ↔ 0 < sdiff s.timeWidth d s.now := by
  have hhalf := two_pow_half (w := s.timeWidth) (by omega)
  have hquarter := two_pow_half (w := s.timeWidth - 1) (by omega)
  rw [show s.timeWidth - 1 - 1 = s.timeWidth - 2 by omega] at hquarter
  have hlt : (d - s.now).toNat % 2 ^ s.timeWidth < 2 ^ s.timeWidth := Nat.mod_lt _ (Nat.two_pow_pos _)
  rw [State.isDue, isDue_eq_false_iff, before_iff_half (by omega), sub_swap_mod h2 d s.now]
  rw [sdiff_eq, State.horizon] at *
  generalize (d - s.now).toNat % 2 ^ s.timeWidth = x at *
  generalize 2 ^ (s.timeWidth - 2) = q at *
  generalize 2 ^ (s.timeWidth - 1) = half at *
  generalize 2 ^ s.timeWidth = m at *
  split at hd <;> split <;> omega

/-- Inside the horizon no pending event is ahead of the nearest one (R72). -/
theorem nearest_sdiff_le {s : State} (h1 : 2 ≤ s.timeWidth) (h2 : s.timeWidth ≤ 32) (hh : s.InHorizon)
    {d : Word} (hd : s.nearest = some d) {i : Nat} (hi : i ∈ s.pend) :
    sdiff s.timeWidth d s.now ≤ sdiff s.timeWidth (s.slot i).deadline s.now := by
  have harc := fun j (hj : j ∈ s.pend) =>
    horizon_arc h1 h2 (hh j (mem_live_of_pend hj)).1 (hh j (mem_live_of_pend hj)).2
  obtain ⟨b, hsel, hb, rfl⟩ := nearest_eq_some hd
  have hle := select_deadline_least _ (by omega) h2 (fun j hj => (harc j hj).2) hsel i hi
  have hoff := (harc b hb).1
  have hoff' := (harc i hi).1
  omega

/-- Inside the horizon, where the nearest pending event is not due, no pending event is. -/
theorem none_due_of_nearest {s : State} (h1 : 2 ≤ s.timeWidth) (h2 : s.timeWidth ≤ 32) (hh : s.InHorizon)
    {d : Word} (hd : s.nearest = some d) (hdue : s.isDue d = false) :
    ∀ i ∈ s.pend, s.isDue (s.slot i).deadline = false := by
  intro i hi
  have hle := nearest_sdiff_le h1 h2 hh hd hi
  obtain ⟨b, -, hb, rfl⟩ := nearest_eq_some hd
  rw [isDue_eq_false_iff_sdiff_pos h1 h2 (hh b (mem_live_of_pend hb)).1] at hdue
  rw [isDue_eq_false_iff_sdiff_pos h1 h2 (hh i (mem_live_of_pend hi)).1]
  omega

theorem irqInv_of_pend_eq_nil {s : State} (h : s.pend = []) : s.IrqInv :=
  .inr fun _ hi => absurd (h ▸ hi) List.not_mem_nil

/-- ARM raises the interrupt where the nearest pending event is due (R73). -/
theorem irqInv_of_programmed {t : State} {c : Word} {p : Bool} (h1 : 2 ≤ t.timeWidth)
    (h2 : t.timeWidth ≤ 32) (hh : t.InHorizon) (h : t.Programmed c p) : t.IrqInv := by
  rcases programmed_cases h with ⟨hn, -, -⟩ | ⟨d, hd, -, hirq⟩
  · exact irqInv_of_pend_eq_nil (nearest_eq_none.1 hn)
  · cases hdue : t.isDue d with
    | true => exact .inl (by rw [hirq, hdue, Bool.or_true])
    | false => exact .inr (none_due_of_nearest h1 h2 hh hd hdue)

/-- A time gains one on a deadline when it counts up. -/
theorem succ_sub_mod {w : Nat} (hw : w ≤ 32) (now d : Word) :
    (now + 1 - d).toNat % 2 ^ w = ((now - d).toNat % 2 ^ w + 1) % 2 ^ w := by
  rw [show now + 1 - d = now - d + 1 by ring, ← trunc_toNat hw, trunc_succ_toNat hw, Nat.mod_add_mod]

/-- A deadline that a tick makes due was one tick ahead: the difference passes through 0, and at half the
range it stays negative. -/
theorem sdiff_eq_one_of_becomes_due {w : Nat} (h1 : 2 ≤ w) (h2 : w ≤ 32) {now d : Word}
    (hbefore : isDue w now d = false) (hafter : isDue w (trunc w (now + 1)) d = true) :
    sdiff w d now = 1 := by
  have hhalf := two_pow_half (w := w) (by omega)
  have hquarter := two_pow_half (w := w - 1) (by omega)
  have hpos : 0 < 2 ^ (w - 1 - 1) := Nat.two_pow_pos _
  have hlt : (now - d).toNat % 2 ^ w < 2 ^ w := Nat.mod_lt _ (Nat.two_pow_pos _)
  rw [isDue_eq_false_iff, before_iff_half (by omega)] at hbefore
  rw [← Bool.not_eq_false, isDue_eq_false_iff, before_iff_half (by omega), trunc_sub_mod h2,
    succ_sub_mod h2] at hafter
  rw [sdiff_eq, sub_swap_mod h2 now d]
  generalize (now - d).toNat % 2 ^ w = x at *
  generalize 2 ^ (w - 1 - 1) = q at *
  generalize 2 ^ (w - 1) = half at *
  generalize 2 ^ w = m at *
  obtain rfl : x = m - 1 := by
    by_contra hx
    rw [Nat.mod_eq_of_lt (by omega)] at hafter
    omega
  rw [if_neg (by omega : ¬ m - 1 = 0), if_pos (by omega)]
  omega

/-- A deadline one tick ahead is the time after the tick. -/
theorem trunc_succ_of_sdiff_eq_one {w : Nat} (hw : w ≤ 32) {now d : Word} (hd : d.toNat < 2 ^ w)
    (h : sdiff w d now = 1) : trunc w (now + 1) = d := by
  have hlt : (d - now).toNat % 2 ^ w < 2 ^ w := Nat.mod_lt _ (Nat.two_pow_pos _)
  have hone : (d - now).toNat % 2 ^ w = 1 := by
    rw [sdiff_eq] at h
    split at h <;> omega
  apply BitVec.eq_of_toNat_eq
  calc (trunc w (now + 1)).toNat
      = ((d - now).toNat % 2 ^ w + now.toNat) % 2 ^ w := by
        rw [trunc_succ_toNat hw, hone, Nat.add_comm]
    _ = (d - now + now).toNat % 2 ^ w := by
        rw [Nat.mod_add_mod, BitVec.toNat_add, Nat.mod_mod_of_dvd _ (two_pow_dvd hw)]
    _ = d.toNat := by rw [BitVec.sub_add_cancel, Nat.mod_eq_of_lt hd]

/-- The armed timer matches on a tick that makes a pending event due: inside the horizon the nearest
pending deadline is then one tick ahead too (R92). -/
theorem match_of_becomes_due {s : State} (h1 : 2 ≤ s.timeWidth) (h2 : s.timeWidth ≤ 32)
    (hwidth : s.WidthInv) (htimer : s.TimerInv) (hh : s.InHorizon)
    (hnone : ∀ i ∈ s.pend, s.isDue (s.slot i).deadline = false) {i : Nat} (hi : i ∈ s.pend)
    (hdue : isDue s.timeWidth (trunc s.timeWidth (s.now + 1)) (s.slot i).deadline = true) :
    s.cmpArmed = true ∧ trunc s.timeWidth (s.now + 1) = s.cmpValue := by
  rcases htimer with ⟨-, hp⟩ | ⟨harmed, -, hnear⟩
  · rw [hp] at hi
    exact absurd hi List.not_mem_nil
  · refine ⟨harmed, trunc_succ_of_sdiff_eq_one h2 hwidth.2.1 ?_⟩
    have hone := sdiff_eq_one_of_becomes_due h1 h2 (hnone i hi) hdue
    have hle := nearest_sdiff_le h1 h2 hh hnear hi
    obtain ⟨b, -, hb, hcmp⟩ := nearest_eq_some hnear
    have hpos := (isDue_eq_false_iff_sdiff_pos h1 h2 (hh b (mem_live_of_pend hb)).1).1 (hnone b hb)
    rw [hcmp] at hpos
    omega

theorem irqInv_tick {s : State} (hinv : s.Inv) (hirq : s.IrqInv) (hh : s.InHorizon) :
    (tick s).IrqInv := by
  obtain ⟨⟨⟨h1, h2⟩, -, -⟩, hwidth, -, htimer⟩ := hinv
  rcases hirq with hp | hnone
  · exact .inl (by rw [tick_irqPending, hp, Bool.true_or])
  · rw [State.IrqInv, or_iff_not_imp_right]
    intro hsome
    push Not at hsome
    obtain ⟨i, hi, hdue⟩ := hsome
    rw [pend_of_slots (tick_slots s)] at hi
    rw [slot_congr (tick_slots s), State.isDue, tick_timeWidth, tick_now, Bool.ne_false_iff] at hdue
    obtain ⟨harmed, hmatch⟩ := match_of_becomes_due h1 h2 hwidth htimer hh hnone hi hdue
    rw [tick_irqPending, harmed, hmatch, Bool.true_and, beq_self_eq_true, Bool.or_true]

/-- The fetch writes the model's own fields only. -/
theorem fetch_eq_withPorts (s : State) : ∃ ins who last, (fetch s).2 = s.withPorts ins who last := by
  unfold fetch
  split <;> exact ⟨_, _, _, rfl⟩

/-- Settles O54: a tick by the compare match (R92), a command by ARM's run ASAP (R73). -/
theorem noDueEventIsLeftWithoutAnInterrupt : Obligations.NoDueEventIsLeftWithoutAnInterrupt := by
  intro s t hinv hirq hh hh' h
  have hw := step_timeWidth h
  rcases step_tick_or_reset_or_sameEvents_or_armed h with ⟨-, rfl⟩ | ⟨-, rfl⟩ |
    ⟨hnow, hslots, -, -, hp⟩ | ⟨i, -, -, pending, hprog, -⟩
  · obtain ⟨ins, who, last, hf⟩ := fetch_eq_withPorts s
    rw [hf]
    exact irqInv_tick (s := s.withPorts ins who last) hinv hirq hh
  · exact irqInv_of_pend_eq_nil (pend_resetWith (fetch s).2.params)
  · exact irqInv_congr hslots hw hnow hp hirq
  · obtain ⟨⟨⟨h1, h2⟩, -, -⟩, -, -, -⟩ := hinv
    exact irqInv_of_programmed (hw ▸ h1) (hw ▸ h2) hh' hprog

/-! ### Runs from reset inside the horizon -/

theorem params_resetWith (p : Params) : (State.resetWith p).params = p := by
  simp [State.params, State.nslot, State.resetWith]

theorem inv_resetWith {p : Params} (hp : p.Legal) : (State.resetWith p).Inv := by
  refine ⟨by rwa [params_resetWith], ⟨Nat.two_pow_pos _, Nat.two_pow_pos _, ?_⟩, ?_, timerInv_resetWith p⟩
  · refine forall_slots.2 fun i _ => ?_
    rw [slot_resetWith]
    exact Nat.two_pow_pos _
  · refine forall_slots.2 fun i _ => ?_
    rw [slot_resetWith]
    exact ⟨Bool.noConfusion, fun _ => rfl⟩

theorem run_zero {s t : State} (h : core.run 0 s = .next t) : t = s := by
  cases h
  rfl

/-- Both invariants hold along a run every state of which is inside the horizon. -/
theorem run_keeps_inv_and_irqInv {k : Nat} {s t : State} (hinv : s.Inv) (hirq : s.IrqInv)
    (hh : ∀ j, j ≤ k → ∀ u, core.run j s = .next u → State.InHorizon u)
    (h : core.run k s = .next t) : t.Inv ∧ t.IrqInv := by
  induction k generalizing s with
  | zero =>
    rw [run_zero h]
    exact ⟨hinv, hirq⟩
  | succ k ih =>
    obtain ⟨s', hstep, hrun⟩ := run_succ h
    have hhs : s.InHorizon := hh 0 (Nat.zero_le _) s rfl
    have hh' : ∀ j, j ≤ k → ∀ u, core.run j s' = .next u → State.InHorizon u := fun j hj u hu =>
      hh (j + 1) (Nat.succ_le_succ hj) u (by rw [run_cons hstep]; exact hu)
    have hhs' : s'.InHorizon := hh' 0 (Nat.zero_le _) s' rfl
    exact ih (everyStepKeepsTheInvariant s s' hinv hstep)
      (noDueEventIsLeftWithoutAnInterrupt s s' hinv hirq hhs hhs' hstep) hh' hrun

/-- Settles O55: the reset state has both invariants, and the run keeps them. -/
theorem runsInsideTheHorizonMissNoEvent : Obligations.RunsInsideTheHorizonMissNoEvent := by
  intro p ins k t hp hh h
  have hinv : ((State.resetWith p).withPorts ins none none).Inv := inv_resetWith hp
  have hirq : ((State.resetWith p).withPorts ins none none).IrqInv :=
    irqInv_of_pend_eq_nil (pend_resetWith p)
  exact run_keeps_inv_and_irqInv hinv hirq hh h

end Sys2Proof.Machine

/-!
PROOFS. The family 20_memory.md: the step that serves a transaction (R41), and the commands that change
nothing when they are repeated (R48).
-/
namespace Sys2Proof.Machine

/-! ### The step of a transaction -/

/-- Settles O10: the fetch takes the transaction, and its request decodes. -/
theorem stepRunsTheDecodedInstruction : Obligations.StepRunsTheDecodedInstruction := by
  intro s who r rest i hin hd
  simp only [step, fetch_cons hin, hd, inputIssuer]

/-! ### The read-only commands -/

/-- A read-only command writes the response port and nothing else. -/
theorem exec_readOnly {i : Instr} {s t : State} (hi : i.readOnly = true) (h : exec i s = .next t) :
    t = s.withPorts s.inputs s.serving t.response := by
  cases exec_inv h with
  | time | status | badSlot | slot | counted => rfl
  | _ => cases hi

/-- Settles O32: no command reads the port, so the repeat answers the same. -/
theorem readOnlyCommandsHaveNoSideEffect : Obligations.ReadOnlyCommandsHaveNoSideEffect := by
  intro i s t hi h
  have ht := exec_readOnly hi h
  have hagain := exec_withPorts s.inputs s.serving t.response h
  obtain ⟨hinputs, hserving, -⟩ := exec_port h
  rw [← ht, ← hinputs, ← hserving] at hagain
  refine ⟨?_, hagain⟩
  rw [ht]
  exact ⟨⟨rfl, rfl⟩, rfl, rfl, rfl, ⟨rfl, rfl⟩, rfl, rfl⟩

/-! ### MAINTAIN -/

/-- ARM changes nothing of a state that ARM has left (R73). -/
theorem arm_of_programmed {s : State} {c : Word} {p : Bool} (h : s.Programmed c p) : s.arm = s := by
  unfold State.Programmed State.nearest at h
  unfold State.arm
  cases hb : s.select s.pend with
  | none =>
    rw [hb] at h
    obtain ⟨harmed, -, -⟩ := h
    exact State.ext rfl rfl rfl rfl rfl harmed.symm rfl rfl rfl rfl rfl rfl
  | some b =>
    rw [hb] at h
    obtain ⟨harmed, hcmp, hirq⟩ := h
    dsimp only
    split
    next hdue =>
      rw [hdue, Bool.or_true] at hirq
      exact State.ext rfl rfl rfl rfl rfl harmed.symm hcmp.symm hirq.symm rfl rfl rfl rfl
    next => exact State.ext rfl rfl rfl rfl rfl harmed.symm hcmp.symm rfl rfl rfl rfl rfl

/-- A MAINTAIN that finds the timer as ARM leaves it only answers (R80). -/
theorem exec_maintain_of_programmed {s : State} {c : Word} {p : Bool} (h : s.Programmed c p) :
    exec .maintain s = .next (s.answered 0 0 0 0 0) :=
  calc exec .maintain s = respond 0 0 0 0 0 s.arm := rfl
    _ = .next (s.answered 0 0 0 0 0) := by rw [arm_of_programmed h]; rfl

/-- Settles O33: the second ARM finds what the first one left. -/
theorem maintainIsIdempotentAndMovesNoArmedTimer :
    Obligations.MaintainIsIdempotentAndMovesNoArmedTimer := by
  intro s t h
  cases exec_inv h with
  | maintained =>
    have hprog := armed_answered_programmed s 0 0 0 0 0
    refine ⟨exec_maintain_of_programmed hprog, fun hinv => ?_⟩
    exact programmed_keeps_timer hinv (nearest_congr (arm_slots s) (arm_timeWidth s)) hprog

/-! ### SERVICE -/

/-- No pending event is due. -/
def State.NoPendingDue (s : State) : Prop := ∀ i ∈ s.pend, s.isDue (s.slot i).deadline = false

theorem noPendingDue_congr {s t : State} (hs : t.slots = s.slots) (hw : t.timeWidth = s.timeWidth)
    (hn : t.now = s.now) (h : s.NoPendingDue) : t.NoPendingDue := by
  simpa only [State.NoPendingDue, pend_of_slots hs, slot_congr hs, State.isDue, hw, hn] using h

theorem State.NoPendingDue.newlyDue_eq_false {s : State} (h : s.NoPendingDue) (i : Nat) :
    newlyDue s (s.slot i) = false := by
  by_contra hnew
  simp only [newlyDue, Bool.not_eq_false, Bool.and_eq_true, Bool.not_eq_true'] at hnew
  obtain ⟨hpend, hdue⟩ := hnew
  rw [h i (mem_pend.2 hpend)] at hdue
  cases hdue

/-- ARM does not run ASAP where no pending event is due (R73). -/
theorem State.NoPendingDue.irqPending_of_programmed {t : State} {c : Word} {p : Bool} (h : t.NoPendingDue)
    (hprog : t.Programmed c p) : t.irqPending = p := by
  rcases programmed_cases hprog with ⟨-, -, hirq⟩ | ⟨d, hd, -, hirq⟩
  · exact hirq
  · obtain ⟨b, -, hb, rfl⟩ := nearest_eq_some hd
    rw [hirq, h b hb, Bool.or_false]

/-- SERVICE's writes change nothing where no pending event is due and no interrupt is pending (R81). -/
theorem State.NoPendingDue.latchDue_eq {s : State} (h : s.NoPendingDue) (hirq : s.irqPending = false) :
    latchDue s = s := by
  have hslots : (latchDue s).slots = s.slots := slots_ext (latchDue_nslot s) fun i _ => by
    rw [slot_latchDue, h.newlyDue_eq_false i, if_neg Bool.false_ne_true]
  exact State.ext rfl rfl rfl hslots rfl rfl rfl hirq.symm rfl rfl rfl rfl

/-- A SERVICE that finds nothing to latch or to acknowledge, and the timer as ARM leaves it, only answers
0. -/
theorem exec_service_of_noPendingDue {s : State} {c : Word} (h : s.NoPendingDue)
    (hprog : s.Programmed c false) : exec .service s = .next (s.answered 0 0 0 0 0) := by
  have hcount : s.indices (newlyDue s) = [] := indices_eq_nil fun i _ => h.newlyDue_eq_false i
  have hlatch : latchDue s = s := h.latchDue_eq (h.irqPending_of_programmed hprog)
  calc exec .service s
      = respond (countWord (s.indices (newlyDue s)).length) 0 0 0 0 (latchDue s).arm := rfl
    _ = .next (s.answered 0 0 0 0 0) := by rw [hcount, hlatch, arm_of_programmed hprog]; rfl

/-- Settles O34: the first SERVICE has latched what was due and armed the timer for the rest. -/
theorem secondServiceLatchesNothing : Obligations.SecondServiceLatchesNothing := by
  intro s t h
  cases exec_inv h with
  | serviced =>
    have hnone := noPendingDue_congr (arm_slots (latchDue s)) (arm_timeWidth _) (arm_now _)
      (latchDue_none_due s)
    exact ⟨hnone, exec_service_of_noPendingDue hnone (armed_answered_programmed (latchDue s) _ 0 0 0 0)⟩

end Sys2Proof.Machine

/-!
PROOFS. The family 30_encoding.md, the words: decoder and encoder agree (R52, R53, R57), the opcode map
(R57), the legal command words (R61), and the words an assembler sends (R65, R66).
-/
namespace Sys2Proof

/-! ### The decoder's cases, both ways -/

theorem DecodeCase.legalWord {r : Request} {i : Instr} (h : DecodeCase r i) :
    legalWord r.cmd.toNat := by
  cases h <;> omega

theorem DecodeCase.dispatchOpcode_eq {r : Request} {i : Instr} (h : DecodeCase r i) :
    dispatchOpcode r = .ok i := by
  unfold dispatchOpcode
  rw [opcField_toNat]
  cases h with
  | schedule h | cancel h | cancelAll h | maintain h | service h | runNext h | readTime h
  | readStatus h | countParam h => rw [h]; rfl
  | readSlot k h =>
    have hopc : r.cmd.toNat % 256 = 9 := by omega
    have hslot : slotField r.cmd = k :=
      BitVec.eq_of_toNat_eq (by rw [slotField_toNat]; omega)
    rw [hopc, hslot]
    rfl
  | writeCtrl c _ h =>
    have hopc : r.cmd.toNat % 256 = 11 := by omega
    have hctrl : ctrlField r.cmd = c :=
      BitVec.eq_of_toNat_eq (by rw [ctrlField_toNat]; omega)
    rw [hopc, hctrl]
    rfl

/-- The decoder answers an instruction exactly where the request is one of its cases. -/
theorem decode_eq_ok_iff {r : Request} {i : Instr} : decode r = .ok i ↔ DecodeCase r i :=
  ⟨decode_inv, fun h => (decode_of_legal h.legalWord).trans h.dispatchOpcode_eq⟩

theorem decode_ok_of_legal {r : Request} (h : legalWord r.cmd.toNat) :
    ∃ i, decode r = .ok i ∧ DecodeCase r i := by
  rw [decode_of_legal h]
  exact dispatch_case h

theorem decode_error_of_not_ok {r : Request} (h : ∀ i, decode r ≠ .ok i) :
    ∃ e, decode r = .error e := by
  cases hd : decode r with
  | error e => exact ⟨e, rfl⟩
  | ok i => exact absurd hd (h i)

/-! ### Decoder and encoder -/

theorem writeCtrl_wellFormed_iff {c : BitVec 8} : (Instr.writeCtrl c).WellFormed ↔ c.toNat ≤ 1 := by
  have hupper := ctrlUpper_toNat c
  simp only [Instr.WellFormed, Instr.wf, beq_iff_eq, ← BitVec.toNat_inj, hupper]
  change c.toNat / 2 = 0 ↔ c.toNat ≤ 1
  omega

theorem decodeCase_encode {i : Instr} (h : i.WellFormed) : DecodeCase (encode i) i := by
  cases i with
  | schedule d cb p => exact .schedule rfl
  | cancel k => exact .cancel rfl
  | cancelAll p => exact .cancelAll rfl
  | maintain => exact .maintain rfl
  | service => exact .service rfl
  | runNext => exact .runNext rfl
  | readTime => exact .readTime rfl
  | readStatus => exact .readStatus rfl
  | readSlot k => exact .readSlot k (readSlotWord_toNat k)
  | countParam p => exact .countParam rfl
  | writeCtrl c => exact .writeCtrl c (writeCtrl_wellFormed_iff.1 h) (writeCtrlWord_toNat c)

/-- Settles O1: the encoding of an instruction is the decoder's case of that instruction. -/
theorem decodeOfEncodeIsTheInstruction : Obligations.DecodeOfEncodeIsTheInstruction :=
  fun _ h => decode_eq_ok_iff.2 (decodeCase_encode h)

theorem DecodeCase.wellFormed {r : Request} {i : Instr} (h : DecodeCase r i) : i.WellFormed := by
  cases h with
  | writeCtrl c hc _ => exact writeCtrl_wellFormed_iff.2 hc
  | _ => rfl

theorem DecodeCase.encode_cmd {r : Request} {i : Instr} (h : DecodeCase r i) :
    (encode i).cmd = r.cmd := by
  apply BitVec.eq_of_toNat_eq
  cases h with
  | readSlot k h => exact (readSlotWord_toNat k).trans h.symm
  | writeCtrl c _ h => exact (writeCtrlWord_toNat c).trans h.symm
  | schedule h | cancel h | cancelAll h | maintain h | service h | runNext h | readTime h
  | readStatus h | countParam h => exact h.symm

/-- The encoder puts back the operand words the instruction reads (R53). -/
theorem DecodeCase.encode_args {r : Request} {i : Instr} (h : DecodeCase r i) :
    (1 ≤ i.operandWords → (encode i).arg0 = r.arg0) ∧
      (2 ≤ i.operandWords → (encode i).arg1 = r.arg1) ∧
      (3 ≤ i.operandWords → (encode i).arg2 = r.arg2) := by
  cases h with
  | schedule => exact ⟨fun _ => rfl, fun _ => rfl, fun _ => rfl⟩
  | cancel | cancelAll | countParam => simp [Instr.operandWords, encode]
  | maintain | service | runNext | readTime | readStatus | readSlot | writeCtrl =>
    simp [Instr.operandWords]

/-- Settles O2, by the cases of the decoder. -/
theorem decodedInstructionEncodesBack : Obligations.DecodedInstructionEncodesBack := by
  intro r i h
  have hcase := decode_inv h
  exact ⟨hcase.wellFormed, hcase.encode_cmd, hcase.encode_args⟩

/-- Settles O5: the conditions of R61 are those of a legal word. -/
theorem otherCommandWordsAreLegal : Obligations.OtherCommandWordsAreLegal := by
  intro r hlow hhigh hrsvd hslot hctrl hupper
  obtain ⟨i, hdecode, hcase⟩ := decode_ok_of_legal ⟨⟨hlow, hhigh⟩, hrsvd, hslot, hctrl, hupper⟩
  exact ⟨i, hdecode, hcase.wellFormed⟩

/-- A request is the same case as another with its command word and its operand words that are read. -/
theorem DecodeCase.congr {r r' : Request} {i : Instr} (h : DecodeCase r i) (hcmd : r'.cmd = r.cmd)
    (h0 : 1 ≤ i.operandWords → r'.arg0 = r.arg0) (h1 : 2 ≤ i.operandWords → r'.arg1 = r.arg1)
    (h2 : 3 ≤ i.operandWords → r'.arg2 = r.arg2) : DecodeCase r' i := by
  cases h with
  | schedule h =>
    rw [← h0 (Nat.le_add_left 1 2), ← h1 (Nat.le_succ 2), ← h2 (Nat.le_refl 3)]
    exact .schedule (hcmd ▸ h)
  | cancel h => rw [← h0 (Nat.le_refl 1)]; exact .cancel (hcmd ▸ h)
  | cancelAll h => rw [← h0 (Nat.le_refl 1)]; exact .cancelAll (hcmd ▸ h)
  | maintain h => exact .maintain (hcmd ▸ h)
  | service h => exact .service (hcmd ▸ h)
  | runNext h => exact .runNext (hcmd ▸ h)
  | readTime h => exact .readTime (hcmd ▸ h)
  | readStatus h => exact .readStatus (hcmd ▸ h)
  | readSlot k h => exact .readSlot k (hcmd ▸ h)
  | countParam h => rw [← h0 (Nat.le_refl 1)]; exact .countParam (hcmd ▸ h)
  | writeCtrl c hc h => exact .writeCtrl c hc (hcmd ▸ h)

/-- Settles O6: the two requests are the same case of the decoder. -/
theorem ignoredOperandWordsDoNotMatter : Obligations.IgnoredOperandWordsDoNotMatter :=
  fun _ _ _ h hcmd h0 h1 h2 => decode_eq_ok_iff.2 ((decode_inv h).congr hcmd h0 h1 h2)

/-- Settles O8: the decoder computes each of them. -/
theorem wordsOfTheOpcodeMapDecode : Obligations.WordsOfTheOpcodeMapDecode :=
  ⟨rfl, rfl, rfl, rfl, rfl, rfl, rfl, rfl, rfl, rfl, rfl⟩

/-! ### The opcode map (R57) -/

/-- Where the mask of a row that covers a word is all ones, the word has the bits of the pattern. -/
theorem OpcodeRow.covers_bits {row : OpcodeRow} {cmd : Word} (h : row.covers cmd = true) (start len : Nat)
    (hmask : row.mask.extractLsb' start len = BitVec.allOnes len) :
    cmd.toNat / 2 ^ start % 2 ^ len = row.pattern.toNat / 2 ^ start % 2 ^ len := by
  have hcovers : cmd &&& row.mask = row.pattern := eq_of_beq h
  have hbits : cmd.extractLsb' start len = row.pattern.extractLsb' start len := by
    rw [← hcovers, BitVec.extractLsb'_and, hmask, BitVec.and_allOnes]
  simpa only [BitVec.extractLsb'_toNat, Nat.shiftRight_eq_div_pow] using congrArg BitVec.toNat hbits

/-- The pattern of each row is an opcode, and its mask fixes `OPC`, `RSVD` and `CTRLV[7:1]`. -/
theorem opcodeMap_fixed : ∀ row ∈ opcodeMap, (1 ≤ row.pattern.toNat ∧ row.pattern.toNat ≤ 11) ∧
    row.mask.extractLsb' 0 8 = BitVec.allOnes 8 ∧ row.mask.extractLsb' 24 8 = BitVec.allOnes 8 ∧
    row.mask.extractLsb' 17 7 = BitVec.allOnes 7 := by
  decide

/-- The mask of each row fixes `CTRLV`, except that of WRITE_CTRL. -/
theorem opcodeMap_ctrl : ∀ row ∈ opcodeMap, row.mask.extractLsb' 16 8 = BitVec.allOnes 8 ∨
    row.pattern.toNat = 11 := by
  decide

theorem pattern_of_mnemonic_readSlot : ∀ row ∈ opcodeMap, row.mnemonic = "READ_SLOT" →
    row.pattern.toNat = 9 := by
  decide

theorem opcodeMap_pattern_injective : ∀ row ∈ opcodeMap, ∀ row' ∈ opcodeMap,
    row.pattern.toNat = row'.pattern.toNat → row = row' := by
  decide

/-- A row covers words of its own opcode only. -/
theorem OpcodeRow.covers_opcode {row : OpcodeRow} {cmd : Word} (hrow : row ∈ opcodeMap)
    (h : row.covers cmd = true) : cmd.toNat % 256 = row.pattern.toNat := by
  obtain ⟨⟨-, hle⟩, hopc, -, -⟩ := opcodeMap_fixed row hrow
  have hbits := covers_bits h 0 8 hopc
  omega

theorem OpcodeRow.covers_unique {row row' : OpcodeRow} {cmd : Word} (hrow : row ∈ opcodeMap)
    (hrow' : row' ∈ opcodeMap) (h : row.covers cmd = true) (h' : row'.covers cmd = true) : row = row' :=
  opcodeMap_pattern_injective row hrow row' hrow'
    ((covers_opcode hrow h).symm.trans (covers_opcode hrow' h'))

/-- A covered word is legal, but for the `SLOT` that the mask of WRITE_CTRL leaves open (log entry 14). -/
theorem OpcodeRow.covers_legal {row : OpcodeRow} {cmd : Word} (hrow : row ∈ opcodeMap)
    (h : row.covers cmd = true) (hslot : cmd.toNat / 2 ^ 8 % 256 = 0 ∨ row.mnemonic = "READ_SLOT") :
    legalWord cmd.toNat := by
  obtain ⟨hpattern, -, hrsvd, hupper⟩ := opcodeMap_fixed row hrow
  have hopc := covers_opcode hrow h
  have hrsvdBits := covers_bits h 24 8 hrsvd
  have hupperBits := covers_bits h 17 7 hupper
  have hlt := cmd.isLt
  refine ⟨by omega, by omega, ?_, ?_, by omega⟩
  · exact hslot.imp_right fun hname => hopc.trans (pattern_of_mnemonic_readSlot row hrow hname)
  · rcases opcodeMap_ctrl row hrow with hctrl | h11
    · have hctrlBits := covers_bits h 16 8 hctrl
      exact .inl (by omega)
    · exact .inr (hopc.trans h11)

theorem encodedRow (i : Instr) : Laws.EncodedRow.Statement i := by
  cases i with
  | schedule d cb p => exact Laws.EncodedRow.schedule d cb p
  | cancel k => exact Laws.EncodedRow.cancel k
  | cancelAll p => exact Laws.EncodedRow.cancelAll p
  | maintain => exact Laws.EncodedRow.maintain
  | service => exact Laws.EncodedRow.service
  | runNext => exact Laws.EncodedRow.runNext
  | readTime => exact Laws.EncodedRow.readTime
  | readStatus => exact Laws.EncodedRow.readStatus
  | readSlot k => exact Laws.EncodedRow.readSlot k
  | countParam p => exact Laws.EncodedRow.countParam p
  | writeCtrl c => exact Laws.EncodedRow.writeCtrl c

/-- A word that decodes is covered by the row of its instruction. -/
theorem DecodeCase.covered {r : Request} {i : Instr} (h : DecodeCase r i) :
    ∃ row ∈ opcodeMap, row.mnemonic = i.mnemonic ∧ row.covers r.cmd = true :=
  h.encode_cmd ▸ encodedRow i h.wellFormed

/-- Settles O3: a covered word decodes, and the row of its instruction is the one row that covers it. -/
theorem opcodeMapRowsDecideTheInstruction : Obligations.OpcodeMapRowsDecideTheInstruction := by
  refine fun r => ⟨fun row hrow row' hrow' => OpcodeRow.covers_unique hrow hrow', ?_, fun hnone => ?_⟩
  · intro row hrow hcovers hslot
    obtain ⟨i, hdecode, hcase⟩ := decode_ok_of_legal (OpcodeRow.covers_legal hrow hcovers hslot)
    obtain ⟨own, hown, hname, hownCovers⟩ := hcase.covered
    exact ⟨i, hdecode, OpcodeRow.covers_unique hown hrow hownCovers hcovers ▸ hname.symm⟩
  · refine decode_error_of_not_ok fun i hdecode => ?_
    obtain ⟨row, hrow, -, hcovers⟩ := (decode_inv hdecode).covered
    rw [hnone row hrow] at hcovers
    cases hcovers

/-! ### The assembler (R65, R66) -/

/-- A line that is not refused sends the encoding of a well-formed instruction. -/
theorem Line.request?_eq_encode {line : Line} {r : Request} (h : line.request? = some r) :
    ∃ i : Instr, i.WellFormed ∧ encode i = r := by
  cases line with
  | tick | reset | comment => cases h
  | readSlot n =>
    obtain ⟨-, hr⟩ := Option.ite_none_right_eq_some.1 h
    exact ⟨_, rfl, Option.some.inj hr⟩
  | writeCtrl e =>
    obtain ⟨he, hr⟩ := Option.ite_none_right_eq_some.1 h
    refine ⟨_, writeCtrl_wellFormed_iff.2 ?_, Option.some.inj hr⟩
    rw [BitVec.toNat_ofNat]
    omega
  | irqOn => exact ⟨.writeCtrl 1, rfl, Option.some.inj h⟩
  | irqOff => exact ⟨.writeCtrl 0, rfl, Option.some.inj h⟩
  | _ => exact ⟨_, rfl, Option.some.inj h⟩

/-- Settles O9: an accepted line sends an encoding, which decodes. -/
theorem assembledLinesAreLegalCommands : Obligations.AssembledLinesAreLegalCommands := by
  refine ⟨fun line r h => ?_, fun n => ?_, fun n => ?_, rfl, rfl, fun _ => rfl⟩
  · obtain ⟨i, hwf, rfl⟩ := Line.request?_eq_encode h
    exact ⟨i, decodeOfEncodeIsTheInstruction i hwf, hwf⟩
  · simp [Line.request?]
  · simp [Line.request?]

end Sys2Proof

/-!
PROOFS. The family 30_encoding.md, the commands: what an illegal word does (R61, R62), the deadline operand
(R54), and the status of each transaction (R59, R60).
-/
namespace Sys2Proof.Machine

/-! ### Illegal words -/

theorem step_of_illegal {s : State} {who : Issuer} {r : Request} {rest : List Input} {e : DecodeError}
    (h : s.inputs = .command who r :: rest) (hd : decode r = .error e) :
    step s = .next ((fetch s).2.failed .illegalCommand) := by
  simp only [step, fetch_cons h, hd]
  rfl

/-- Settles O4: no legal word meets a condition of R61, and the decoder accepts legal words only. -/
theorem illegalCommandsAreRefusedWithoutEffect : Obligations.IllegalCommandsAreRefusedWithoutEffect := by
  intro s who r rest hin hbad
  have hillegal : ¬ legalWord r.cmd.toNat := by omega
  obtain ⟨e, he⟩ := decode_error_of_not_ok fun i hd => hillegal (legal_of_decode hd)
  rw [step_of_illegal hin he, fetch_cons hin]
  rfl

/-! ### The deadline operand -/

theorem exec_schedule_of_free {s : State} {f : Nat} (hf : s.freeSlots.head? = some f) (d cb p : Word) :
    exec (.schedule d cb p) s = .next ((addEvent s f d cb p).arm.answered s.seqNext 0 0 0 0) := by
  simp only [exec, execSchedule, hf]
  rfl

/-- SCHEDULE reads its deadline operand through `deadlineOperand` alone. -/
theorem exec_schedule_congr {s : State} {d d' : Word} (cb p : Word)
    (h : deadlineOperand s.timeWidth d = deadlineOperand s.timeWidth d') :
    exec (.schedule d cb p) s = exec (.schedule d' cb p) s := by
  simp only [exec, execSchedule, addEvent, newEvent, h]

/-- Settles O7: the event's deadline is its operand modulo `2^TW`. -/
theorem deadlineIsTheLowBitsOfItsOperand : Obligations.DeadlineIsTheLowBitsOfItsOperand := by
  refine fun s d d' cb p hw => ⟨fun hmod => exec_schedule_congr cb p ?_, fun f hf => ?_⟩
  · exact congrArg (BitVec.ofNat 32) hmod
  · refine ⟨_, exec_schedule_of_free hf d cb p, ?_⟩
    obtain ⟨hlt, -⟩ := mem_freeSlots.1 (head_mem_indices hf)
    rw [slot_answered, slot_arm, slot_addEvent s hlt, if_pos rfl]
    exact trunc_toNat hw d

/-! ### The status -/

/-- The status of a command as a function of the slots (R60). -/
def commandStatus (s : State) : Instr → Status
  | .schedule _ _ _ => if s.freeSlots = [] then .capacityExceeded else .ok
  | .cancel h => if s.HandleDead h then .notFound else .ok
  | .cancelAll _ => .ok
  | .maintain => .ok
  | .service => .ok
  | .runNext => if s.ready = [] then .noneDue else .ok
  | .readTime => .ok
  | .readStatus => .ok
  | .readSlot k => if s.nslot ≤ k.toNat then .badSlot else .ok
  | .countParam _ => .ok
  | .writeCtrl _ => .ok

/-- Every command answers with that status. -/
theorem ExecCase.response_status {s t : State} {i : Instr} (h : ExecCase s i t) :
    ∃ r, t.response = some r ∧ r.status = commandStatus s i := by
  cases h with
  | capacityExceeded d cb p hfree => exact ⟨_, failed_response .., (if_pos hfree).symm⟩
  | scheduled d cb p f hf =>
    have hfree : s.freeSlots ≠ [] := List.ne_nil_of_mem (head_mem_indices hf)
    exact ⟨_, answered_response .., (if_neg hfree).symm⟩
  | notFound k hk => exact ⟨_, failed_response .., (if_pos (holder_eq_none.1 hk)).symm⟩
  | cancelled k j hk =>
    have hlive : ¬ s.HandleDead k := by simp [← holder_eq_none, hk]
    exact ⟨_, answered_response .., (if_neg hlive).symm⟩
  | noneDue hready => exact ⟨_, failed_response .., (if_pos hready).symm⟩
  | popped b hb =>
    have hready : s.ready ≠ [] := List.ne_nil_of_mem (select_mem hb)
    exact ⟨_, answered_response .., (if_neg hready).symm⟩
  | badSlot k hk => exact ⟨_, failed_response .., (if_pos hk).symm⟩
  | slot k hk => exact ⟨_, answered_response .., (if_neg (Nat.not_le.2 hk)).symm⟩
  | _ => exact ⟨_, answered_response .., rfl⟩

theorem commandStatus_congr {s t : State} (h : t.slots = s.slots) : commandStatus t = commandStatus s := by
  have hfree : t.freeSlots = s.freeSlots := indices_of_slots _ h
  have hdead : ∀ k, t.HandleDead k ↔ s.HandleDead k := fun k => by
    simp only [State.HandleDead, live_of_slots h, slot_congr h]
  have hnslot : t.nslot = s.nslot := congrArg List.length h
  funext i
  cases i <;> simp only [commandStatus, hfree, hdead, ready_of_slots h, hnslot]

/-- The status of a request, from what the decoder makes of it. -/
def decodedStatus (s : State) : Except DecodeError Instr → Status
  | .error _ => .illegalCommand
  | .ok i => commandStatus s i

theorem step_status {s : State} {who : Issuer} {q : Request} {rest : List Input}
    (h : s.inputs = .command who q :: rest) :
    ∃ t r, step s = .next t ∧ t.response = some r ∧ r.status = decodedStatus s (decode q) := by
  cases hd : decode q with
  | error e => exact ⟨_, _, step_of_illegal h hd, failed_response .., rfl⟩
  | ok i =>
    obtain ⟨t, ht, hcase⟩ := exec_case i { s with inputs := rest, serving := some who, response := none }
    obtain ⟨r, hr, hstatus⟩ := hcase.response_status
    refine ⟨t, r, (stepRunsTheDecodedInstruction s who q rest i h hd).trans ht, hr, hstatus.trans ?_⟩
    exact congrFun (commandStatus_congr rfl) i

/-- The causes of R59 and R60, by status; OK needs none. -/
def StatusCause (s : State) (d : Except DecodeError Instr) : Status → Prop
  | .ok => True
  | .capacityExceeded => ∃ t cb p, d = .ok (.schedule t cb p) ∧ s.freeSlots = []
  | .notFound => ∃ h, d = .ok (.cancel h) ∧ s.HandleDead h
  | .noneDue => d = .ok .runNext ∧ s.ready = []
  | .badSlot => ∃ k, d = .ok (.readSlot k) ∧ s.nslot ≤ k.toNat
  | .illegalCommand => ∃ e, d = .error e

/-- Each error is the status exactly on its cause: a request has at most one. -/
theorem decodedStatus_eq_iff (s : State) (d : Except DecodeError Instr) {c : Status} (hc : c ≠ .ok) :
    decodedStatus s d = c ↔ StatusCause s d c := by
  cases d with
  | error e => cases c <;> simp [decodedStatus, StatusCause] at hc ⊢
  | ok i =>
    cases i with
    | schedule | cancel | runNext | readSlot =>
      cases c <;> simp [decodedStatus, commandStatus, StatusCause, ite_eq_iff] at hc ⊢
    | cancelAll | maintain | service | readTime | readStatus | countParam | writeCtrl =>
      cases c <;> simp [decodedStatus, commandStatus, StatusCause] at hc ⊢

/-- Settles O14: the step answers with the status of its request, which is an error on its cause. -/
theorem statusIsDecidedByItsCause : Obligations.StatusIsDecidedByItsCause := by
  refine ⟨fun s who q rest h => ?_, rfl, rfl, rfl, rfl, rfl, rfl⟩
  obtain ⟨t, r, hstep, hr, hstatus⟩ := step_status h
  have hcause : ∀ c, c ≠ .ok → (r.status = c ↔ StatusCause s (decode q) c) := fun c hc => by
    rw [hstatus, decodedStatus_eq_iff s _ hc]
  exact ⟨t, r, hstep, hr, hcause .illegalCommand (by decide), hcause .badSlot (by decide),
    hcause .capacityExceeded (by decide), hcause .notFound (by decide), hcause .noneDue (by decide)⟩

end Sys2Proof.Machine

/-!
PROOFS. The family 40_time_compare.md: `BEFORE` and the due window (R67 to R69), SELECT and the event order
(R70 to R72), the timer after SCHEDULE (R74), and READ_TIME (R76).
-/
namespace Sys2Proof.Machine

/-! ### BEFORE and the due window -/

theorem before_self (w : Nat) (a : Word) : before w a a = false := by
  simp [before, sdiff_self]

/-- `BEFORE` the other way round: the lower half of the modular difference, without 0 and with half the
range (R68). -/
theorem before_swap_iff_half {w : Nat} (h1 : 1 ≤ w) (h2 : w ≤ 32) (a b : Word) : before w b a = true ↔
    (a - b).toNat % 2 ^ w ≠ 0 ∧ (a - b).toNat % 2 ^ w ≤ 2 ^ (w - 1) := by
  have hhalf := two_pow_half h1
  have hpos : 0 < 2 ^ (w - 1) := Nat.two_pow_pos _
  have hlt : (a - b).toNat % 2 ^ w < 2 ^ w := Nat.mod_lt _ (Nat.two_pow_pos _)
  rw [before_iff_half h1, sub_swap_mod h2 a b]
  split <;> omega

/-- Two different times of `W` bits have a modular difference. -/
theorem sub_mod_ne_zero {w : Nat} (hw : w ≤ 32) {a b : Word} (ha : a.toNat < 2 ^ w)
    (hb : b.toNat < 2 ^ w) (hne : a ≠ b) : (a - b).toNat % 2 ^ w ≠ 0 := by
  refine fun h0 => hne (eq_of_offset_eq hw b a b ha hb ?_)
  rw [offset, offset, h0, BitVec.sub_self]
  simp

/-- Settles O43: `BEFORE` and its swap are the two halves of one modular difference. -/
theorem beforeIsTheUpperHalfOfTheDifference : Obligations.BeforeIsTheUpperHalfOfTheDifference := by
  intro w a b h1 h2 ha hb
  have hab := before_iff_half h1 a b
  have hba := before_swap_iff_half h1 h2 a b
  rw [← sub_toNat_mod h2 a b hb]
  refine ⟨hab, before_self w a, fun hhalf => ⟨?_, ?_⟩, fun hne hnhalf => ?_⟩
  · exact hab.2 hhalf.ge
  · exact hba.2 ⟨hhalf ▸ (Nat.two_pow_pos _).ne', hhalf.le⟩
  · have hne0 := sub_mod_ne_zero h2 ha hb hne
    rw [Bool.eq_not_iff, Ne, Bool.eq_iff_iff, hab, hba]
    omega

/-- The time `k` ticks after another has the modular difference `k` from it. -/
theorem trunc_add_sub_mod {w k : Nat} (hw : w ≤ 32) (hk : k < 2 ^ w) (v : Word) :
    (trunc w (v + BitVec.ofNat 32 k) - v).toNat % 2 ^ w = k := by
  have hle := two_pow_le hw
  rw [trunc_sub_mod hw, BitVec.add_comm, BitVec.add_sub_cancel, BitVec.toNat_ofNat,
    Nat.mod_mod_of_dvd _ (two_pow_dvd hw), Nat.mod_eq_of_lt hk]

theorem isDue_iff_not_before {w : Nat} {now d : Word} :
    isDue w now d = true ↔ ¬ before w now d = true := by
  simp [isDue]

/-- Settles O44: the modular difference is `k`, read in either direction. -/
theorem dueWindowIsHalfTheRing : Obligations.DueWindowIsHalfTheRing := by
  intro w k v h1 h2 hk
  have hdiff := trunc_add_sub_mod h2 hk v
  rw [isDue_iff_not_before, isDue_iff_not_before, before_swap_iff_half h1 h2, before_iff_half h1, hdiff]
  constructor <;> omega

/-! ### SELECT and the event order -/

/-- The last turn of SELECT's loop (R71). -/
theorem select_concat (s : State) (xs : List Nat) (i : Nat) :
    s.select (xs ++ [i]) = s.better (s.select xs) i :=
  List.foldl_concat ..

/-- Settles O47: SELECT is a fold. -/
theorem selectIsALinearScan : Obligations.SelectIsALinearScan := fun s =>
  ⟨rfl, fun xs i => select_concat s xs i, fun _ => select_eq_none, fun _ _ => select_mem⟩

/-- An event's place in the event order on an arc: its deadline's offset, then its `SEQ`'s (R72). -/
def State.eventKey (s : State) (base seqBase : Word) (i : Nat) : Nat ×ₗ Nat :=
  toLex (offset s.timeWidth base (s.slot i).deadline, offset 32 seqBase (s.slot i).seq)

/-- On an arc `ORDER_LT` compares the keys (R72). -/
theorem orderLt_iff_eventKey_lt {s : State} {base seqBase : Word} {xs : List Nat} (h1 : 1 ≤ s.timeWidth)
    (h2 : s.timeWidth ≤ 32) (hw : s.WidthInv) (hd : s.DeadlinesFrom base xs)
    (hq : s.SeqsFrom seqBase xs) {i j : Nat} (hi : i ∈ xs) (hj : j ∈ xs) :
    s.orderLt i j = true ↔ s.eventKey base seqBase i < s.eventKey base seqBase j := by
  have hbefore := before_iff_offset_lt h1 h2 base _ _ (hd i hi) (hd j hj)
  have heq : (s.slot i).deadline = (s.slot j).deadline ↔
      offset s.timeWidth base (s.slot i).deadline = offset s.timeWidth base (s.slot j).deadline :=
    ⟨fun h => by rw [h],
      eq_of_offset_eq h2 base _ _ (slot_deadline_lt hw i) (slot_deadline_lt hw j)⟩
  have hseq : sdiff 32 (s.slot i).seq (s.slot j).seq < 0 ↔
      offset 32 seqBase (s.slot i).seq < offset 32 seqBase (s.slot j).seq :=
    decide_eq_true_iff.symm.trans
      (before_iff_offset_lt (by decide) (by decide) seqBase _ _ (hq i hi) (hq j hj))
  rw [State.orderLt, orderLt, Bool.or_eq_true, Bool.and_eq_true, beq_iff_eq, decide_eq_true_iff, hbefore,
    heq, hseq, State.eventKey, State.eventKey, Prod.Lex.toLex_lt_toLex]

/-- Where a key decides `ORDER_LT`, SELECT is the library's scan for the least key. -/
theorem select_eq_argmin {α : Type} [LinearOrder α] {s : State} {key : Nat → α} {xs : List Nat}
    (h : ∀ i ∈ xs, ∀ j ∈ xs, s.orderLt i j = true ↔ key i < key j) : s.select xs = xs.argmin key := by
  induction xs using List.reverseRecOn with
  | nil => rfl
  | append_singleton xs x ih =>
    have hxs : s.select xs = xs.argmin key :=
      ih fun i hi j hj => h i (List.mem_append_left _ hi) j (List.mem_append_left _ hj)
    rw [select_concat, List.argmin_concat, hxs]
    cases hb : xs.argmin key with
    | none => rfl
    | some b =>
      have hmem : b ∈ xs ++ [x] := List.mem_append_left _ (List.argmin_mem hb)
      simp only [State.better, h x List.mem_concat_self b hmem]

/-- Settles O48: on the arc SELECT is the scan for the least key. -/
theorem selectReturnsTheLeastEvent : Obligations.SelectReturnsTheLeastEvent := by
  intro s base seqBase xs h1 h2 hw hd hq
  have hkey := fun i (hi : i ∈ xs) j (hj : j ∈ xs) => orderLt_iff_eventKey_lt h1 h2 hw hd hq hi hj
  refine ⟨fun i hi j hj => (hkey i hi j hj).trans Prod.Lex.toLex_lt_toLex, fun b hb i hi => ?_⟩
  have hleast := List.not_lt_of_mem_argmin hi (select_eq_argmin hkey ▸ hb)
  rwa [← hkey i hi b (select_mem hb), Bool.not_eq_true] at hleast

/-! ### The timer after SCHEDULE -/

/-- On an arc the nearest pending deadline is the pending deadline with the least offset (R72). -/
theorem nearest_eq_some_iff {s : State} {base d : Word} (h1 : 1 ≤ s.timeWidth) (h2 : s.timeWidth ≤ 32)
    (hw : s.WidthInv) (hd : s.DeadlinesFrom base s.pend) : s.nearest = some d ↔
      (∃ i ∈ s.pend, (s.slot i).deadline = d) ∧ ∀ i ∈ s.pend,
        offset s.timeWidth base d ≤ offset s.timeWidth base (s.slot i).deadline := by
  constructor
  · intro h
    obtain ⟨b, hsel, hb, rfl⟩ := nearest_eq_some h
    exact ⟨⟨b, hb, rfl⟩, select_deadline_least base h1 h2 hd hsel⟩
  · rintro ⟨⟨i, hi, rfl⟩, hleast⟩
    cases hn : s.nearest with
    | none => exact absurd (nearest_eq_none.1 hn ▸ hi) List.not_mem_nil
    | some e =>
      obtain ⟨b, hsel, hb, rfl⟩ := nearest_eq_some hn
      have hle := select_deadline_least base h1 h2 hd hsel i hi
      exact congrArg some (eq_of_offset_eq h2 base _ _ (slot_deadline_lt hw b) (slot_deadline_lt hw i)
        (Nat.le_antisymm hle (hleast b hb)))

theorem arm_of_nearest {s : State} {d : Word} (h : s.nearest = some d) :
    s.arm.cmpArmed = true ∧ s.arm.cmpValue = d := by
  rcases arm_timer s with ⟨hn, -⟩ | ⟨e, he, harmed, hcmp, -⟩
  · rw [h] at hn
    cases hn
  · exact ⟨harmed, hcmp.trans (Option.some.inj (he.symm.trans h))⟩

section AddEvent
variable {s : State} {f : Nat}

theorem widthInv_addEvent (h2 : s.timeWidth ≤ 32) (hw : s.WidthInv) (d cb p : Word) :
    (addEvent s f d cb p).WidthInv := by
  obtain ⟨hnow, hcmp, hslots⟩ := hw
  refine ⟨hnow, hcmp, fun x hx => ?_⟩
  rcases List.mem_or_eq_of_mem_set hx with hx | rfl
  · exact hslots x hx
  · exact trunc_lt h2 d

/-- The event SCHEDULE adds is pending, in the slot it fills. -/
theorem mem_pend_addEvent_self (hf : f ∈ s.freeSlots) (d cb p : Word) :
    f ∈ (addEvent s f d cb p).pend ∧
      ((addEvent s f d cb p).slot f).deadline = trunc s.timeWidth d := by
  have hslot : (addEvent s f d cb p).slot f = newEvent s d cb p := by
    rw [slot_addEvent s (mem_freeSlots.1 hf).1, if_pos rfl]
  rw [mem_pend, hslot]
  exact ⟨⟨rfl, rfl⟩, rfl⟩

/-- The events pending before SCHEDULE are still pending, in their slots. -/
theorem mem_pend_addEvent_of_mem_pend (hf : f ∈ s.freeSlots) (d cb p : Word) {i : Nat} (hi : i ∈ s.pend) :
    i ∈ (addEvent s f d cb p).pend ∧ (addEvent s f d cb p).slot i = s.slot i := by
  obtain ⟨hlt, hfree⟩ := mem_freeSlots.1 hf
  have hne : i ≠ f := by
    rintro rfl
    rw [(mem_pend.1 hi).1] at hfree
    cases hfree
  have hslot : (addEvent s f d cb p).slot i = s.slot i := by rw [slot_addEvent s hlt, if_neg hne]
  rw [mem_pend, hslot]
  exact ⟨mem_pend.1 hi, rfl⟩

/-- No other event is pending after SCHEDULE. -/
theorem eq_or_mem_pend_of_mem_pend_addEvent (hf : f ∈ s.freeSlots) {d cb p : Word} {i : Nat}
    (hi : i ∈ (addEvent s f d cb p).pend) : i = f ∨ i ∈ s.pend := by
  rw [mem_pend, slot_addEvent s (mem_freeSlots.1 hf).1] at hi
  by_cases h : i = f
  · exact .inl h
  · rw [if_neg h] at hi
    exact .inr (mem_pend.2 hi)

/-- A property of the pending deadlines after SCHEDULE's writes is one of the new deadline and of the
pending deadlines from before. -/
theorem forall_pend_addEvent (hf : f ∈ s.freeSlots) (d cb p : Word) {q : Word → Prop}
    (hnew : q (trunc s.timeWidth d)) (hold : ∀ i ∈ s.pend, q (s.slot i).deadline) :
    ∀ i ∈ (addEvent s f d cb p).pend, q ((addEvent s f d cb p).slot i).deadline := by
  intro i hi
  rcases eq_or_mem_pend_of_mem_pend_addEvent hf hi with rfl | hi
  · rwa [(mem_pend_addEvent_self hf d cb p).2]
  · rw [(mem_pend_addEvent_of_mem_pend hf d cb p hi).2]
    exact hold i hi

end AddEvent

/-- The timer value of the source's conditional reprogramming (R74). -/
def State.reprogrammed (s : State) (e : Word) : Word :=
  if s.cmpArmed = true ∧ before s.timeWidth e s.cmpValue = false then s.cmpValue else e

/-- On an arc, the deadline that is nearest after SCHEDULE's writes is the one the conditional
reprogramming leaves in the timer. -/
theorem nearest_addEvent {s : State} {f : Nat} {base : Word} (hinv : s.Inv) (hf : f ∈ s.freeSlots)
    (d cb p : Word) (hpend : s.DeadlinesFrom base s.pend)
    (hnew : offset s.timeWidth base (trunc s.timeWidth d) < 2 ^ (s.timeWidth - 1)) :
    (addEvent s f d cb p).nearest = some (s.reprogrammed (trunc s.timeWidth d)) := by
  obtain ⟨⟨⟨h1, h2⟩, -, -⟩, hw, -, htimer⟩ := hinv
  have h1' : 1 ≤ s.timeWidth := Nat.le_of_succ_le h1
  have hself := mem_pend_addEvent_self hf d cb p
  have harc := forall_pend_addEvent hf d cb p
    (q := fun e => offset s.timeWidth base e < 2 ^ (s.timeWidth - 1)) hnew hpend
  have hleast := fun e => forall_pend_addEvent hf d cb p
    (q := fun e' => offset s.timeWidth base e ≤ offset s.timeWidth base e')
  refine (nearest_eq_some_iff (s := addEvent s f d cb p) h1' h2
    (widthInv_addEvent h2 hw d cb p) harc).2 ?_
  rw [State.reprogrammed]
  rcases htimer with ⟨hoff, hnone⟩ | ⟨hon, -, hnear⟩
  · rw [if_neg (by simp [hoff])]
    exact ⟨⟨f, hself⟩, hleast _ (Nat.le_refl _) (by simp [hnone])⟩
  · obtain ⟨⟨b, hb, hcmp⟩, hcmpLeast⟩ := (nearest_eq_some_iff h1' h2 hw hpend).1 hnear
    have hkept := mem_pend_addEvent_of_mem_pend hf d cb p hb
    have hbefore := before_iff_offset_lt h1' h2 base (trunc s.timeWidth d) s.cmpValue hnew
      (hcmp ▸ hpend b hb)
    split
    next h =>
      have hle := Nat.not_lt.1 (hbefore.not.1 (Bool.not_eq_true _ ▸ h.2))
      exact ⟨⟨b, hkept.1, hkept.2 ▸ hcmp⟩, hleast _ hle hcmpLeast⟩
    next h =>
      have hlt := hbefore.1 (by simpa [hon] using h)
      exact ⟨⟨f, hself⟩, hleast _ (Nat.le_refl _) fun i hi => hlt.le.trans (hcmpLeast i hi)⟩

/-- Settles O56: ARM programs the nearest deadline after SCHEDULE's writes. -/
theorem scheduleReprogramsOnlyForANearerDeadline :
    Obligations.ScheduleReprogramsOnlyForANearerDeadline := by
  intro s t d cb p base hinv hfree hpend hnew h
  cases exec_inv h with
  | capacityExceeded _ _ _ hnone => exact absurd hnone hfree
  | scheduled _ _ _ f hf =>
    exact arm_of_nearest (nearest_addEvent hinv (head_mem_indices hf) d cb p hpend hnew)

/-! ### READ_TIME -/

/-- Settles O20: `RAW` is the low part of `NOW`. -/
theorem readTimeReturnsTime : Obligations.ReadTimeReturnsTime :=
  ⟨fun _ _ _ => decode_eq_ok_iff.2 (.readTime rfl), fun s hr => ⟨s.raw, trunc_toNat hr s.now, rfl⟩⟩

end Sys2Proof.Machine

/-!
PROOFS. The family 41_schedule_cancel.md: what SCHEDULE, CANCEL, CANCEL_ALL and MAINTAIN write and leave
(R77 to R80), and a parameter that stays cancelled along a run (R79, R84).
-/
namespace Sys2Proof.Machine

/-! ### A cancelled parameter -/

/-- A property that each step of a run keeps holds at its end. A step is given with its place in the run. -/
theorem run_keeps {Q : State → Prop} {k : Nat} {s t : State} (hs : Q s)
    (hstep : ∀ j, j < k → ∀ u v, core.run j s = .next u → step u = .next v → Q u → Q v)
    (h : core.run k s = .next t) : Q t := by
  induction k generalizing s with
  | zero => exact run_zero h ▸ hs
  | succ k ih =>
    obtain ⟨s', hfirst, hrun⟩ := run_succ h
    refine ih (hstep 0 (Nat.succ_pos k) s s' rfl hfirst hs) (fun j hj u v hu => ?_) hrun
    exact hstep (j + 1) (Nat.succ_lt_succ hj) u v ((run_cons hfirst).trans hu)

/-- A slot is tagged where it is live with the parameter: equality on the whole word (R79). -/
theorem tagged_iff {p : Word} {x : Slot} : tagged p x = true ↔ x.valid = true ∧ x.param = p := by
  rw [tagged, Bool.and_eq_true, beq_iff_eq]

/-- No live event has this parameter. -/
def State.TagAbsent (s : State) (p : Word) : Prop := ∀ i ∈ s.live, (s.slot i).param ≠ p

theorem tagAbsent_congr {s t : State} {p : Word} (hs : t.slots = s.slots) (h : s.TagAbsent p) :
    t.TagAbsent p := by
  simpa only [State.TagAbsent, live_of_slots hs, slot_congr hs] using h

theorem freeTagged_tagAbsent (s : State) (p : Word) : (freeTagged s p).TagAbsent p := by
  intro i hi hp
  rw [mem_live, slot_freeTagged] at hi
  rw [slot_freeTagged] at hp
  split at hi
  next => cases hi
  next htag =>
    rw [if_neg htag] at hp
    exact htag (tagged_iff.2 ⟨hi, hp⟩)

theorem exec_cancelAll_tagAbsent {s t : State} {p : Word} (h : exec (.cancelAll p) s = .next t) :
    t.TagAbsent p := by
  cases exec_inv h with
  | cancelledAll => exact tagAbsent_congr (arm_slots _) (freeTagged_tagAbsent s p)

/-- Only a SCHEDULE of the parameter brings it back. -/
theorem step_tagAbsent {s t : State} {p : Word} (h : step s = .next t)
    (hsent : ∀ d cb, inputInstr (fetch s).1 ≠ some (.schedule d cb p)) (hs : s.TagAbsent p) :
    t.TagAbsent p := by
  intro i hi hp
  rcases step_slot_origin h i (mem_live.1 hi) with ⟨hv, -, hparam⟩ | ⟨d, cb, q, hq, -, -, hparam, -⟩
  · exact hs i (mem_live.2 hv) (hparam.symm.trans hp)
  · obtain rfl : q = p := hparam.symm.trans hp
    exact hsent d cb hq

theorem State.TagAbsent.indices_tagged {s : State} {p : Word} (h : s.TagAbsent p) :
    s.indices (tagged p) = [] := by
  refine indices_eq_nil fun i _ => Bool.eq_false_iff.2 fun htag => ?_
  obtain ⟨hvalid, hparam⟩ := tagged_iff.1 htag
  exact h i (mem_live.2 hvalid) hparam

theorem exec_countParam (s : State) (p : Word) : exec (.countParam p) s =
    .next (s.answered (countWord (s.indices (tagged p)).length) 0 0 0 0) := rfl

/-- An OK RUN_NEXT returns the parameter of a live event, since a latched event is live (R82). -/
theorem exec_runNext_param {s t : State} {r : Response} (h : exec .runNext s = .next t)
    (hr : t.response = some r) (hok : r.status = .ok) : ∃ i ∈ s.live, r.res1 = (s.slot i).param := by
  cases exec_inv h with
  | noneDue =>
    cases hr
    cases hok
  | popped b hb =>
    cases hr
    exact ⟨b, mem_live_iff_pend_or_ready.2 (.inr (select_mem hb)), rfl⟩

/-- Settles O60: CANCEL_ALL leaves no live event with the parameter, and no step of the run brings one. -/
theorem cancelledTagNeverFires : Obligations.CancelledTagNeverFires := by
  intro s s' u p k hcancel hsent hrun
  have habsent : u.TagAbsent p := run_keeps (exec_cancelAll_tagAbsent hcancel)
    (fun j hj v w hv hw => step_tagAbsent hw (hsent j hj v hv)) hrun
  refine ⟨?_, fun t r hx hr hok => ?_⟩
  · rw [exec_countParam, habsent.indices_tagged]
    rfl
  · obtain ⟨i, hi, hparam⟩ := exec_runNext_param hx hr hok
    exact hparam ▸ habsent i hi

/-! ### What the event-set commands keep (R31) -/

theorem State.Kept.refl (s : State) : s.Kept s := ⟨⟨rfl, rfl, rfl⟩, rfl, rfl, rfl, rfl⟩

theorem kept_addEvent (s : State) (f : Nat) (d cb p : Word) : s.Kept (addEvent s f d cb p) :=
  ⟨⟨rfl, rfl, addEvent_nslot s f d cb p⟩, rfl, rfl, rfl, rfl⟩

theorem kept_freeSlot (s : State) (i : Nat) : s.Kept (s.freeSlot i) :=
  ⟨⟨rfl, rfl, freeSlot_nslot s i⟩, rfl, rfl, rfl, rfl⟩

theorem kept_freeTagged (s : State) (p : Word) : s.Kept (freeTagged s p) :=
  ⟨⟨rfl, rfl, freeTagged_nslot s p⟩, rfl, rfl, rfl, rfl⟩

/-- ARM and the answer at the end of a command keep it too. -/
theorem State.Kept.arm_answered {s u : State} (h : s.Kept u) (r0 r1 r2 r3 r4 : Word) :
    s.Kept (u.arm.answered r0 r1 r2 r3 r4) := by
  obtain ⟨⟨hw, hr, hn⟩, hnow, hen, hin, hserv⟩ := h
  exact ⟨⟨(arm_timeWidth u).trans hw, (arm_rawWidth u).trans hr, (arm_nslot u).trans hn⟩,
    (arm_now u).trans hnow, (arm_irqEn u).trans hen, (arm_inputs u).trans hin,
    (arm_serving u).trans hserv⟩

/-! ### SCHEDULE -/

theorem exec_schedule_of_full {s : State} (hs : s.freeSlots = []) (d cb p : Word) :
    exec (.schedule d cb p) s = .next (s.failed .capacityExceeded) := by
  simp only [exec, execSchedule, hs, List.head?_nil]
  rfl

/-- Settles O21: the lowest free slot is the head of FREE, and with every slot live FREE is empty. -/
theorem scheduleAddsOneEvent : Obligations.ScheduleAddsOneEvent := by
  refine ⟨fun _ _ _ => decode_eq_ok_iff.2 (.schedule rfl), fun s d cb p => ⟨fun hfull => ?_, ?_⟩⟩
  · exact exec_schedule_of_full (indices_eq_nil fun i hi => by rw [hfull i hi, Bool.not_true]) d cb p
  · intro f hlt hfree hleast
    have hf : s.freeSlots.head? = some f := head_indices_of_least hlt (by rw [hfree, Bool.not_false])
      fun i hi => by rw [hleast i hi, Bool.not_true]
    exact ⟨_, exec_schedule_of_free hf d cb p, (kept_addEvent s f d cb p).arm_answered _ _ _ _ _,
      fun i => (slot_arm _ i).trans (slot_addEvent s hlt d cb p i), arm_seqNext _,
      armed_answered_programmed (addEvent s f d cb p) _ _ _ _ _, rfl⟩

/-! ### CANCEL -/

theorem exec_cancel_of_dead {s : State} {h : Word} (hs : s.HandleDead h) :
    exec (.cancel h) s = .next (s.failed .notFound) := by
  simp only [exec, execCancel, holder_eq_none.2 hs]
  rfl

theorem exec_cancel_of_holder {s : State} {h : Word} {k : Nat} (hk : holder s h = some k) :
    exec (.cancel h) s = .next ((s.freeSlot k).arm.answered 0 0 0 0 0) := by
  simp only [exec, execCancel, hk]
  rfl

/-- Settles O22: the holder of the handle is the lowest live slot with it. -/
theorem cancelRemovesOneEvent : Obligations.CancelRemovesOneEvent := by
  refine ⟨fun _ _ _ => decode_eq_ok_iff.2 (.cancel rfl), fun s h => ⟨fun hdead => ?_, ?_⟩⟩
  · refine exec_cancel_of_dead fun i hi => ?_
    exact hdead i (lt_nslot_of_valid (mem_live.1 hi)) (mem_live.1 hi)
  · intro k hvalid hseq hleast
    exact ⟨_, exec_cancel_of_holder (holder_of_least hvalid hseq hleast),
      (kept_freeSlot s k).arm_answered 0 0 0 0 0, fun i => (slot_arm _ i).trans (slot_freeSlot s k i),
      arm_seqNext _, armed_answered_programmed (s.freeSlot k) 0 0 0 0 0, rfl⟩

/-! ### CANCEL_ALL -/

/-- The slots that CANCEL_ALL frees are the live ones with the parameter. -/
theorem filter_live_param (s : State) (p : Word) :
    s.live.filter (fun i => (s.slot i).param = p) = s.indices (tagged p) :=
  filter_indices s (fun x => x.valid) (fun x => x.param = p)

theorem exec_cancelAll (s : State) (p : Word) : exec (.cancelAll p) s =
    .next ((freeTagged s p).arm.answered (countWord (s.indices (tagged p)).length) 0 0 0 0) := rfl

/-- Settles O23: the count is of at most 256 slots, so its result word holds it. -/
theorem cancelAllRemovesEveryTaggedEvent : Obligations.CancelAllRemovesEveryTaggedEvent := by
  refine ⟨fun _ _ _ => decode_eq_ok_iff.2 (.cancelAll rfl), fun s p hn => ?_⟩
  refine ⟨_, _, exec_cancelAll s p, (kept_freeTagged s p).arm_answered _ _ _ _ _,
    fun i => ?_, ?_, arm_seqNext _, armed_answered_programmed (freeTagged s p) _ _ _ _ _, rfl⟩
  · simp only [← tagged_iff]
    exact (slot_arm _ i).trans (slot_freeTagged s p i)
  · rw [countWord_toNat ((length_indices_le s _).trans hn), filter_live_param]

/-! ### MAINTAIN -/

/-- ARM where no event is pending (R73). -/
theorem arm_of_select_eq_none {s : State} (h : s.select s.pend = none) :
    s.arm.cmpArmed = false ∧ s.arm.cmpValue = s.cmpValue ∧ s.arm.irqPending = s.irqPending := by
  have hnone : s.nearest = none := congrArg (Option.map _) h
  rcases arm_timer s with ⟨-, htimer⟩ | ⟨d, hd, -⟩
  · exact htimer
  · rw [hnone] at hd
    cases hd

/-- ARM where SELECT finds a pending event (R73). -/
theorem arm_of_select_eq_some {s : State} {b : Nat} (h : s.select s.pend = some b) :
    s.arm.cmpArmed = true ∧ s.arm.cmpValue = (s.slot b).deadline ∧
      s.arm.irqPending = (s.irqPending || s.isDue (s.slot b).deadline) := by
  have hsome : s.nearest = some (s.slot b).deadline := congrArg (Option.map _) h
  rcases arm_timer s with ⟨hn, -⟩ | ⟨d, hd, htimer⟩
  · rw [hsome] at hn
    cases hn
  · obtain rfl : d = (s.slot b).deadline := Option.some.inj (hd.symm.trans hsome)
    exact htimer

theorem exec_maintain (s : State) : exec .maintain s = .next (s.arm.answered 0 0 0 0 0) := rfl

/-- Settles O24: MAINTAIN is ARM and an answer. -/
theorem maintainProgramsTheTimer : Obligations.MaintainProgramsTheTimer :=
  ⟨fun _ _ _ => decode_eq_ok_iff.2 (.maintain rfl), fun s =>
    ⟨_, exec_maintain s, (State.Kept.refl s).arm_answered 0 0 0 0 0, arm_slots s, arm_seqNext s,
      arm_of_select_eq_none, fun _ => arm_of_select_eq_some, rfl⟩⟩

end Sys2Proof.Machine

/-!
PROOFS. The family 42_dispatch.md: what SERVICE and RUN_NEXT write and leave (R81, R82), handles that stay
dead along a run (R84, R85), and the order in which events with equal deadlines fire (R86).
-/
namespace Sys2Proof.Machine

/-! ### RUN_NEXT -/

theorem exec_runNext_of_ready_eq_nil {s : State} (h : s.ready = []) :
    exec .runNext s = .next (s.failed .noneDue) := by
  simp only [exec, execRunNext, select_eq_none.2 h]
  rfl

theorem exec_runNext_of_select {s : State} {b : Nat} (h : s.select s.ready = some b) :
    exec .runNext s = .next ((s.freeSlot b).arm.answered (s.slot b).callback (s.slot b).param
      (s.slot b).seq (s.slot b).deadline (countWord b)) := by
  simp only [exec, execRunNext, h]
  rfl

/-- A latched event is live (R13). -/
theorem mem_live_of_ready {s : State} {i : Nat} (h : i ∈ s.ready) : i ∈ s.live :=
  mem_live_iff_pend_or_ready.2 (.inr h)

/-- Where an event is latched SELECT finds one, so RUN_NEXT frees a slot (R82). -/
theorem exists_select_ready {s : State} {i : Nat} (h : i ∈ s.ready) : ∃ b, s.select s.ready = some b :=
  Option.ne_none_iff_exists'.1 fun hnone => List.ne_nil_of_mem h (select_eq_none.1 hnone)

/-- RUN_NEXT leaves the nearest pending deadline, since the event it frees is latched (R82). -/
theorem nearest_pop {s : State} {b : Nat} (hb : b ∈ s.ready) (r0 r1 r2 r3 r4 : Word) :
    ((s.freeSlot b).arm.answered r0 r1 r2 r3 r4).nearest = s.nearest :=
  (nearest_congr (arm_slots (s.freeSlot b)) (arm_timeWidth _)).trans (nearest_freeSlot_ready hb)

/-- Settles O26: with an event latched SELECT finds one, and freeing it leaves the pending events. -/
theorem runNextPopsOneLatchedEvent : Obligations.RunNextPopsOneLatchedEvent := by
  refine ⟨fun _ _ _ => decode_eq_ok_iff.2 (.runNext rfl), fun s => ⟨fun hnone => ?_, ?_⟩⟩
  · refine exec_runNext_of_ready_eq_nil (List.eq_nil_iff_forall_not_mem.2 fun i hi => ?_)
    obtain ⟨hvalid, hdue⟩ := mem_ready.1 hi
    exact Bool.false_ne_true ((hnone i hvalid).symm.trans hdue)
  · intro i hvalid hdue hn
    obtain ⟨b, hb⟩ := exists_select_ready (mem_ready.2 ⟨hvalid, hdue⟩)
    have hready : b ∈ s.ready := select_mem hb
    have hlt : b < s.nslot := (mem_indices.1 hready).1
    have hprog := armed_answered_programmed (s.freeSlot b) (s.slot b).callback (s.slot b).param
      (s.slot b).seq (s.slot b).deadline (countWord b)
    exact ⟨_, b, countWord b, exec_runNext_of_select hb, hb, (kept_freeSlot s b).arm_answered _ _ _ _ _,
      fun j => (slot_arm _ j).trans (slot_freeSlot s b j), arm_seqNext _, hprog,
      fun hinv => programmed_keeps_timer hinv (nearest_pop hready ..) hprog,
      countWord_toNat (hlt.le.trans hn), rfl⟩

/-! ### Dead handles -/

theorem handleDead_congr {s t : State} {h : Word} (hs : t.slots = s.slots) (hd : s.HandleDead h) :
    t.HandleDead h := by
  simpa only [State.HandleDead, live_of_slots hs, slot_congr hs] using hd

/-- Only a SCHEDULE that hands out the handle brings it back (R77, R84). -/
theorem step_handleDead {s t : State} {h : Word} (hx : step s = .next t)
    (hsent : s.seqNext = h → ∀ d cb p, inputInstr (fetch s).1 ≠ some (.schedule d cb p))
    (hd : s.HandleDead h) : t.HandleDead h := by
  intro i hi hseq
  rcases step_slot_origin hx i (mem_live.1 hi) with ⟨hvalid, hkept, -⟩ | ⟨d, cb, p, hs, -, hnew, -, -⟩
  · exact hd i (mem_live.2 hvalid) (hkept.symm.trans hseq)
  · exact hsent (hnew.symm.trans hseq) d cb p hs

/-- The step of a transaction that decodes is its instruction's (R41). -/
theorem exec_of_step {s t : State} {i : Instr} (h : step s = .next t)
    (hi : inputInstr (fetch s).1 = some i) : exec i (fetch s).2 = .next t := by
  rcases step_cases h with ⟨hf, -⟩ | ⟨hf, -⟩ | ⟨who, r, e, hf, hd, -⟩ | ⟨who, r, j, hf, hd, hx⟩
  · rw [hf] at hi
    cases hi
  · rw [hf] at hi
    cases hi
  · simp only [hf, inputInstr, hd, reduceCtorEq] at hi
  · rw [hf, inputInstr_of_decode hd] at hi
    cases hi
    exact hx

/-- An OK RUN_NEXT frees a live event and returns its handle (R82). -/
theorem exec_runNext_handle {s t : State} {r : Response} (h : exec .runNext s = .next t)
    (hr : t.response = some r) (hok : r.status = .ok) :
    ∃ b ∈ s.live, (s.slot b).seq = r.res2 ∧ t.slots = (s.freeSlot b).slots := by
  cases exec_inv h with
  | noneDue =>
    cases hr
    cases hok
  | popped b hb =>
    cases hr
    exact ⟨b, mem_live_of_ready (select_mem hb), rfl, arm_slots _⟩

/-- Settles O59: no step of the run brings the handle back, and RUN_NEXT returns a live event's. -/
theorem deadHandleNeverFires : Obligations.DeadHandleNeverFires := by
  intro s u t h k r hdead hsent hrun hnext hstep hr hok
  have hu : u.HandleDead h := run_keeps (Q := fun v => v.HandleDead h) hdead
    (fun j hj v w hv hw => step_handleDead hw (hsent j hj v hv)) hrun
  obtain ⟨b, hb, hseq, -⟩ := exec_runNext_handle (exec_of_step hstep hnext) hr hok
  exact hseq ▸ handleDead_congr (fetch_slots u) hu b hb

/-- Freeing the one holder of a handle leaves the handle dead. -/
theorem State.HandlesUnique.freeSlot_handleDead {s : State} (hu : s.HandlesUnique) {k : Nat}
    (hk : k ∈ s.live) : (s.freeSlot k).HandleDead (s.slot k).seq := by
  obtain ⟨hinj, -⟩ := hu
  intro i hi hseq
  rw [mem_live, slot_freeSlot] at hi
  rw [slot_freeSlot] at hseq
  split at hi
  next => cases hi
  next hne =>
    rw [if_neg hne] at hseq
    exact hne (hinj i (mem_live.2 hi) k hk hseq)

theorem exec_cancel_handleDead {s t : State} {h : Word} (hu : s.HandlesUnique)
    (hx : exec (.cancel h) s = .next t) : t.HandleDead h := by
  cases exec_inv hx with
  | notFound _ hnone => exact handleDead_congr rfl (holder_eq_none.1 hnone)
  | cancelled _ k hk =>
    obtain ⟨hlive, rfl⟩ := holder_spec hk
    exact handleDead_congr (arm_slots _) (hu.freeSlot_handleDead hlive)

theorem exec_runNext_handleDead {s t : State} {r : Response} (hu : s.HandlesUnique)
    (hx : exec .runNext s = .next t) (hr : t.response = some r) (hok : r.status = .ok) :
    t.HandleDead r.res2 := by
  obtain ⟨b, hb, hseq, hslots⟩ := exec_runNext_handle hx hr hok
  exact hseq ▸ handleDead_congr hslots (hu.freeSlot_handleDead hb)

/-- Settles O58: either command frees the one live event that has the handle. -/
theorem cancelledOrFiredHandleIsDead : Obligations.CancelledOrFiredHandleIsDead := by
  intro s t h hu hx
  have hdead : t.HandleDead h := by
    rcases hx with hx | ⟨hx, r, hr, hok, rfl⟩
    · exact exec_cancel_handleDead hu hx
    · exact exec_runNext_handleDead hu hx hr hok
  exact ⟨hdead, exec_cancel_of_dead hdead⟩

/-! ### SERVICE -/

/-- A pending event is newly due where the signed difference has reached 0 (R69, R81). -/
theorem newlyDue_iff {s : State} {x : Slot} : newlyDue s x = true ↔
    x.valid = true ∧ x.due = false ∧ 0 ≤ sdiff s.timeWidth s.now x.deadline := by
  simp only [newlyDue, State.isDue, isDue, before, Bool.and_eq_true, Bool.not_eq_true',
    decide_eq_false_iff_not, not_lt, and_assoc]

theorem kept_latchDue (s : State) : s.Kept (latchDue s) :=
  ⟨⟨rfl, rfl, latchDue_nslot s⟩, rfl, rfl, rfl, rfl⟩

/-- The slots that SERVICE latches are the pending ones whose deadline has been reached. -/
theorem filter_pend_isDue (s : State) :
    s.pend.filter (fun i => s.isDue (s.slot i).deadline) = s.indices (newlyDue s) :=
  filter_indices s (fun x => x.valid && !x.due) (fun x => s.isDue x.deadline)

theorem exec_service (s : State) : exec .service s =
    .next ((latchDue s).arm.answered (countWord (s.indices (newlyDue s)).length) 0 0 0 0) := rfl

/-- After SERVICE no pending event is due. -/
theorem noPendingDue_service (s : State) (r0 r1 r2 r3 r4 : Word) :
    ((latchDue s).arm.answered r0 r1 r2 r3 r4).NoPendingDue :=
  noPendingDue_congr (arm_slots (latchDue s)) (arm_timeWidth _) (arm_now _) (latchDue_none_due s)

/-- Settles O25: ARM finds no due pending event after the latch loop, so it leaves `IRQ_PENDING` at 0. -/
theorem serviceLatchesTheDueEvents : Obligations.ServiceLatchesTheDueEvents := by
  refine ⟨fun _ _ _ => decode_eq_ok_iff.2 (.service rfl), fun s hn => ?_⟩
  have hprog := armed_answered_programmed (latchDue s) (countWord (s.indices (newlyDue s)).length) 0 0 0 0
  refine ⟨_, _, exec_service s, (kept_latchDue s).arm_answered _ _ _ _ _, fun i => ?_, ?_,
    arm_seqNext _, hprog, (noPendingDue_service s _ 0 0 0 0).irqPending_of_programmed hprog, rfl⟩
  · simp only [← newlyDue_iff]
    exact (slot_arm _ i).trans (slot_latchDue s i)
  · rw [countWord_toNat ((length_indices_le s _).trans hn), filter_pend_isDue]

/-! ### Events with equal deadlines (R86) -/

/-- A pending slot after the latch loop: live, and latched where its deadline has been reached (R81). -/
theorem slot_latchDue_of_pend {s : State} {i : Nat} (hi : i ∈ s.pend) :
    ((latchDue s).slot i).valid = true ∧
      ((latchDue s).slot i).due = s.isDue (s.slot i).deadline := by
  obtain ⟨hvalid, hdue⟩ := mem_pend.1 hi
  rw [slot_latchDue, newlyDue, hvalid, hdue, Bool.not_false, Bool.and_self, Bool.true_and]
  split
  next h => exact ⟨hvalid, h.symm⟩
  next h => exact ⟨hvalid, hdue.trans (Bool.eq_false_iff.2 h).symm⟩

/-- Settles O50: whether SERVICE latches a pending event depends on its deadline alone. -/
theorem equalDeadlinesAreLatchedTogether : Obligations.EqualDeadlinesAreLatchedTogether := by
  intro s t i j hi hj heq h
  cases exec_inv h with
  | serviced =>
    obtain ⟨hvi, hdi⟩ := slot_latchDue_of_pend hi
    obtain ⟨hvj, hdj⟩ := slot_latchDue_of_pend hj
    simp only [mem_ready, mem_pend, slot_answered, slot_arm, hvi, hvj, hdi, hdj, heq, and_self]

/-- Among equal deadlines the earlier `SEQ` comes first (R70). -/
theorem orderLt_of_deadline_eq {s : State} {i j : Nat} (hd : (s.slot i).deadline = (s.slot j).deadline)
    (hq : sdiff 32 (s.slot i).seq (s.slot j).seq < 0) : s.orderLt i j = true := by
  simp only [State.orderLt, orderLt, hd, hq, before_self, beq_self_eq_true, decide_true, Bool.and_self,
    Bool.or_true]

/-- Settles O49: SELECT does not return the later event, since the earlier one comes before it. -/
theorem equalDeadlinesFireInScheduleOrder : Obligations.EqualDeadlinesFireInScheduleOrder := by
  intro s t base seqBase i j h1 h2 hw hdl hsq hi hj hd hq h
  obtain ⟨b, hb⟩ := exists_select_ready hi
  have hne : j ≠ b := by
    rintro rfl
    have hnot := (selectReturnsTheLeastEvent s base seqBase s.ready h1 h2 hw hdl hsq).2 j hb i hi
    exact Bool.false_ne_true (hnot.symm.trans (orderLt_of_deadline_eq hd hq))
  rw [exec_runNext_of_select hb] at h
  cases h
  have hslot : (s.freeSlot b).arm.slot j = s.slot j := by rw [slot_arm, slot_freeSlot, if_neg hne]
  exact ⟨mem_ready.2 (hslot.symm ▸ mem_ready.1 hj), hslot⟩

end Sys2Proof.Machine

/-!
PROOFS. The family 43_observe_control.md: what READ_STATUS, READ_SLOT and COUNT_PARAM report without changing
the state (R87 to R89), and what WRITE_CTRL writes (R90).
-/
namespace Sys2Proof.Machine

/-! ### COUNT_PARAM -/

/-- The live slots with a parameter, found by one pass over all slots (R89). -/
theorem filter_range_live_param (s : State) (p : Word) :
    (List.range s.nslot).filter (fun i => (s.slot i).valid = true ∧ (s.slot i).param = p) =
      s.indices (tagged p) := by
  simp only [← tagged_iff, Bool.decide_eq_true, State.indices]

/-- Settles O29: the count is of at most 256 slots, so its result word holds it. -/
theorem countParamCountsLiveEvents : Obligations.CountParamCountsLiveEvents := by
  refine ⟨fun _ _ _ => decode_eq_ok_iff.2 (.countParam rfl), fun s p hn => ?_⟩
  refine ⟨_, exec_countParam s p, ?_⟩
  rw [countWord_toNat ((length_indices_le s _).trans hn), filter_range_live_param]

/-! ### WRITE_CTRL -/

/-- A control value above 1 has a bit of `CTRLV[7:1]` set, which R61 refuses. -/
theorem decode_writeCtrlWord_error {r : Request} {c : BitVec 8} (hc : 2 ≤ c.toNat)
    (hcmd : r.cmd.toNat = 11 + 65536 * c.toNat) : ∃ e, decode r = .error e := by
  have hlt := c.isLt
  have hillegal : ¬ legalWord r.cmd.toNat := fun ⟨_, _, _, _, hupper⟩ => by omega
  exact decode_error_of_not_ok fun i hd => hillegal (legal_of_decode hd)

/-- The enable that WRITE_CTRL takes from its operand is bit 0 (R90). -/
theorem exec_writeCtrl (s : State) (c : BitVec 8) : exec (.writeCtrl c) s =
    .next (State.answered { s with irqEn := decide (c.toNat % 2 = 1) } 0 0 0 0 0) := by
  have hbit : c.getLsbD 0 = decide (c.toNat % 2 = 1) := Nat.testBit_zero c.toNat
  rw [← hbit]
  rfl

/-- Settles O30: the word with `CTRLV` at most 1 is WRITE_CTRL's, and the IRQ output reads the enable that the
command has written. -/
theorem writeCtrlWritesTheEnable : Obligations.WriteCtrlWritesTheEnable :=
  ⟨fun c _ hcmd => ⟨fun hc => decode_eq_ok_iff.2 (.writeCtrl c hc hcmd),
    fun hc => decode_writeCtrlWord_error hc hcmd⟩,
    fun s c => ⟨_, exec_writeCtrl s c, rfl, rfl⟩⟩

/-! ### READ_STATUS -/

/-- The bits of READ_STATUS `RES0` (R87). -/
theorem statusFlags_bits (irq armed pending enabled : Bool) :
    (statusFlags irq armed pending enabled).getLsbD 0 = enabled ∧
      (statusFlags irq armed pending enabled).getLsbD 1 = pending ∧
      (statusFlags irq armed pending enabled).getLsbD 2 = armed ∧
      (statusFlags irq armed pending enabled).getLsbD 3 = irq ∧
      (statusFlags irq armed pending enabled).toNat < 16 := by
  revert irq armed pending enabled
  decide

theorem exec_readStatus (s : State) : exec .readStatus s =
    .next (s.answered (statusFlags s.irq s.cmpArmed s.irqPending s.irqEn) s.cmpValue
      (countWord s.live.length) (countWord s.ready.length) s.seqNext) := rfl

/-- Settles O27: the counts are of at most 256 slots, so their result words hold them, and `DUE` divides
LIVE. -/
theorem readStatusReportsTheState : Obligations.ReadStatusReportsTheState := by
  refine ⟨fun _ _ _ => decode_eq_ok_iff.2 (.readStatus rfl), fun s hn => ?_⟩
  obtain ⟨henabled, hpending, harmed, hirq, hupper⟩ :=
    statusFlags_bits s.irq s.cmpArmed s.irqPending s.irqEn
  have hlive : (countWord s.live.length).toNat = s.live.length :=
    countWord_toNat ((length_indices_le s _).trans hn)
  have hready : (countWord s.ready.length).toNat = s.ready.length :=
    countWord_toNat ((length_indices_le s _).trans hn)
  have hpend : s.live.length - s.ready.length = s.pend.length := by
    rw [length_live, Nat.add_sub_cancel]
  exact ⟨_, _, _, exec_readStatus s, henabled, hpending, harmed, hirq, hupper, hlive, hready, hpend⟩

/-! ### READ_SLOT -/

/-- The bits of READ_SLOT `RES0` (R88). -/
theorem slotFlags_bits (due valid : Bool) : (slotFlags due valid).getLsbD 0 = valid ∧
    (slotFlags due valid).getLsbD 1 = due ∧ (slotFlags due valid).toNat < 4 := by
  revert due valid
  decide

theorem exec_readSlot_of_le {s : State} {k : BitVec 8} (hk : s.nslot ≤ k.toNat) :
    exec (.readSlot k) s = .next (s.failed .badSlot) :=
  if_neg (Nat.not_lt.2 hk)

theorem exec_readSlot_of_lt {s : State} {k : BitVec 8} (hk : k.toNat < s.nslot) :
    exec (.readSlot k) s = .next (s.answered (slotFlags (s.slot k.toNat).due (s.slot k.toNat).valid)
      (s.slot k.toNat).deadline (s.slot k.toNat).callback (s.slot k.toNat).param (s.slot k.toNat).seq) :=
  if_pos hk

/-- Settles O28: the slot invariant leaves zero in every field of a free slot, its flags with them. -/
theorem readSlotReportsTheSlot : Obligations.ReadSlotReportsTheSlot := by
  refine ⟨fun k _ hcmd => decode_eq_ok_iff.2 (.readSlot k hcmd),
    fun s k => ⟨exec_readSlot_of_le, fun hk => ?_⟩⟩
  obtain ⟨hvalid, hdue, hupper⟩ := slotFlags_bits (s.slot k.toNat).due (s.slot k.toNat).valid
  refine ⟨_, hvalid, hdue, hupper, exec_readSlot_of_lt hk, fun hinv hfree => ?_⟩
  obtain ⟨-, hzero⟩ := slotInv_at hinv k.toNat
  rw [hzero hfree]
  exact ⟨rfl, rfl, rfl, rfl, rfl⟩

end Sys2Proof.Machine

/-!
PROOFS. The family 60_exceptions.md: every step answers (R96), the tick and its compare match (R91, R92, R97),
masking (R94), the issuers' duties (R95), and that no issuer is told from another (R101).
-/
namespace Sys2Proof.Machine

/-! ### Every step answers (R96) -/

/-- A step takes one chosen step off the list, records its issuer, and returns a response exactly where there
is an issuer. -/
theorem step_port {s t : State} (h : step s = .next t) : t.inputs = s.inputs.tail ∧
    t.serving = inputIssuer (fetch s).1 ∧ t.response.isSome = (inputIssuer (fetch s).1).isSome := by
  rw [← fetch_inputs, ← fetch_serving]
  rcases step_cases h with ⟨hf, rfl⟩ | ⟨hf, rfl⟩ | ⟨who, r, e, hf, -, rfl⟩ | ⟨who, r, i, hf, -, hx⟩
  · rw [tick_inputs, tick_serving, tick_response, fetch_response, fetch_serving, hf]
    exact ⟨rfl, rfl, rfl⟩
  · have hresponse : (applyReset (fetch s).2).response = none := fetch_response s
    rw [hresponse, fetch_serving, hf]
    exact ⟨rfl, (fetch_serving s).trans (congrArg _ hf), rfl⟩
  · rw [failed_response, fetch_serving, hf]
    exact ⟨rfl, (fetch_serving s).trans (congrArg _ hf), rfl⟩
  · obtain ⟨hinputs, hserving, r, hresponse⟩ := exec_port hx
    rw [hresponse, fetch_serving, hf]
    exact ⟨hinputs, hserving.trans ((fetch_serving s).trans (congrArg _ hf)), rfl⟩

/-- The next step has no issuer where no transaction was chosen. -/
theorem inputIssuer_fetch_eq_none {s : State} (h : ∀ who r rest, s.inputs ≠ .command who r :: rest) :
    inputIssuer (fetch s).1 = none := by
  cases hf : (fetch s).1 with
  | tick | reset => rfl
  | command who r =>
    obtain ⟨rest, hin⟩ := inputs_of_fetch_command hf
    exact absurd hin (h who r rest)

/-- Settles O12: the issuer of the step decides about the response. -/
theorem everyStepAnswersAndEveryCommandGetsAResponse :
    Obligations.EveryStepAnswersAndEveryCommandGetsAResponse := by
  intro s
  obtain ⟨t, ht⟩ := step_total s
  obtain ⟨hinputs, hserving, hresponse⟩ := step_port ht
  refine ⟨t, ht, hinputs, fun who r rest hin => ?_, fun hnone => ?_⟩
  · rw [fetch_cons hin] at hserving hresponse
    exact ⟨hserving, hresponse⟩
  · rw [inputIssuer_fetch_eq_none hnone] at hresponse
    exact Option.isNone_iff_eq_none.1 (by rw [← Option.not_isSome, hresponse]; rfl)

/-! ### The tick and its compare match (R91, R92, R97) -/

/-- Settles O15, by the equations of the tick. -/
theorem tickAdvancesTimeAndMatches : Obligations.TickAdvancesTimeAndMatches := by
  refine ⟨fun i u v => exec_now, fun u rest hin => ⟨_, step_of_reset hin, rfl⟩, ?_⟩
  intro s rest hw hin
  have hstep := step_of_tick hin
  obtain ⟨hinputs, hserving, -⟩ := step_port hstep
  have hissuer : inputIssuer (fetch s).1 = none := by rw [fetch_cons hin]; rfl
  rw [hin, List.tail_cons] at hinputs
  refine ⟨_, hstep, ?_, ?_, ?_, ?_, ?_, ?_, ?_, hinputs, hserving.trans hissuer, ?_⟩
  · rw [tick_now, fetch_timeWidth, fetch_now, trunc_succ_toNat hw]
  · rw [tick_irqPending, tick_now, fetch_irqPending, fetch_cmpArmed, fetch_cmpValue]
    rfl
  all_goals simp only [tick_timeWidth, tick_rawWidth, tick_slots, tick_seqNext, tick_cmpArmed, tick_cmpValue,
    tick_irqEn, tick_response, fetch_timeWidth, fetch_rawWidth, fetch_slots, fetch_seqNext, fetch_cmpArmed,
    fetch_cmpValue, fetch_irqEn, fetch_response, and_self]

/-- Counting up before or after the time is cut to its width is the same (R75). -/
theorem trunc_trunc_add {w : Nat} (hw : w ≤ 32) (a b : Word) :
    trunc w (trunc w a + b) = trunc w (a + b) := by
  apply BitVec.eq_of_toNat_eq
  rw [trunc_toNat hw, trunc_toNat hw, BitVec.toNat_add, BitVec.toNat_add,
    Nat.mod_mod_of_dvd _ (two_pow_dvd hw), Nat.mod_mod_of_dvd _ (two_pow_dvd hw), trunc_toNat hw,
    Nat.mod_add_mod]

/-- A run of ticks that brings `NOW` to the armed `CMP_VALUE` ends with the match of its last tick (R92). -/
theorem run_ticks_match {s : State} {k : Nat} {rest : List Input} (hw : s.timeWidth ≤ 32)
    (harmed : s.cmpArmed = true)
    (hmatch : trunc s.timeWidth (s.now + BitVec.ofNat 32 (k + 1)) = s.cmpValue)
    (hin : s.inputs = List.replicate (k + 1) .tick ++ rest) :
    ∃ t : State, core.run (k + 1) s = .next t ∧ t.now = s.cmpValue ∧ t.irqPending = true ∧
      t.cmpArmed = true ∧ t.cmpValue = s.cmpValue ∧ t.slots = s.slots ∧ t.inputs = rest := by
  induction k generalizing s with
  | zero =>
    have hnow : trunc s.timeWidth (s.now + 1) = s.cmpValue := hmatch
    refine ⟨tick (fetch s).2, run_cons (step_of_tick hin), ?_, ?_, ?_, ?_, ?_, ?_⟩
    · rw [tick_now, fetch_timeWidth, fetch_now, hnow]
    · rw [tick_irqPending, fetch_timeWidth, fetch_now, fetch_cmpArmed, fetch_cmpValue, harmed, hnow,
        beq_self_eq_true, Bool.and_self, Bool.or_true]
    · rw [tick_cmpArmed, fetch_cmpArmed, harmed]
    · rw [tick_cmpValue, fetch_cmpValue]
    · rw [tick_slots, fetch_slots]
    · rw [tick_inputs, fetch_inputs, hin]
      rfl
  | succ k ih =>
    have hnow : trunc s.timeWidth (trunc s.timeWidth (s.now + 1) + BitVec.ofNat 32 (k + 1)) = s.cmpValue := by
      rw [trunc_trunc_add hw, ← hmatch, BitVec.add_assoc, BitVec.add_comm 1]
      congr 2
      exact (BitVec.ofNat_add _ _).symm
    have hrest : (tick (fetch s).2).inputs = List.replicate (k + 1) .tick ++ rest := by
      rw [tick_inputs, fetch_inputs, hin]
      rfl
    have hrun := ih (s := tick (fetch s).2) (by rwa [tick_timeWidth, fetch_timeWidth])
      (by rwa [tick_cmpArmed, fetch_cmpArmed])
      (by rwa [tick_timeWidth, tick_now, tick_cmpValue, fetch_timeWidth, fetch_now, fetch_cmpValue]) hrest
    rw [tick_cmpValue, fetch_cmpValue, tick_slots, fetch_slots] at hrun
    rwa [run_cons (step_of_tick hin)]

/-- Settles O16: at least one tick is taken, and the last one matches. -/
theorem armedTimerMatchesWhenTimeReachesIt : Obligations.ArmedTimerMatchesWhenTimeReachesIt := by
  intro s k rest hw harmed hk _ hmatch hin
  obtain ⟨k, rfl⟩ := Nat.exists_eq_add_of_le' hk
  exact run_ticks_match hw harmed hmatch hin

/-- A time is due at itself (R69). -/
theorem isDue_self (w : Nat) (d : Word) : isDue w d d = true :=
  isDue_iff_not_before.2 (by rw [before_self]; exact Bool.false_ne_true)

/-- Settles O46: one tick ahead is inside the window that is not due, and the tick makes `NOW` that time. -/
theorem tickMakesTheNextDeadlineDue : Obligations.TickMakesTheNextDeadlineDue := by
  intro s t h1 h2 htick h
  have hone : 1 < 2 ^ s.timeWidth := Nat.one_lt_two_pow (by omega)
  have hpos : 0 < 2 ^ (s.timeWidth - 1) := Nat.two_pow_pos _
  obtain ⟨hahead, -⟩ := dueWindowIsHalfTheRing s.timeWidth 1 s.now (by omega) h2 hone
  constructor
  · exact Bool.eq_false_iff.2 fun hdue => by have := hahead.1 hdue; omega
  · rcases step_cases h with ⟨-, rfl⟩ | ⟨hf, -⟩ | ⟨_, _, _, hf, -⟩ | ⟨_, _, _, hf, -⟩
    · rw [State.isDue, tick_timeWidth, tick_now, fetch_timeWidth, fetch_now]
      exact isDue_self _ _
    all_goals
      rw [htick] at hf
      cases hf

/-! ### Masking (R94) -/

/-- The same TES with this value of `IRQ_EN`. -/
def State.withIrqEn (s : State) (b : Bool) : State := { s with irqEn := b }

/-- Time, the slots, `SEQ_NEXT`, the timer and `IRQ_PENDING` are the same in both states; the enable and the
ports may differ. -/
def State.SameUnderMask (s t : State) : Prop :=
  t.now = s.now ∧ t.seqNext = s.seqNext ∧ s.SameEvents t

theorem sameUnderMask_withIrqEn (s : State) (b : Bool) : s.SameUnderMask (s.withIrqEn b) :=
  ⟨rfl, rfl, rfl, rfl, rfl, rfl⟩

theorem fetch_withIrqEn (s : State) (b : Bool) :
    fetch (s.withIrqEn b) = ((fetch s).1, (fetch s).2.withIrqEn b) := by
  unfold fetch State.withIrqEn
  dsimp only
  split <;> rfl

theorem tick_withIrqEn (s : State) (b : Bool) : tick (s.withIrqEn b) = (tick s).withIrqEn b := by
  unfold tick State.withIrqEn
  dsimp only
  split <;> rfl

theorem select_withIrqEn (s : State) (b : Bool) : (s.withIrqEn b).select = s.select := select_congr rfl rfl

/-- ARM leaves the same under either value of `IRQ_EN`: the nearest pending deadline is the same. -/
theorem sameUnderMask_arm (s : State) (b : Bool) : s.arm.SameUnderMask (s.withIrqEn b).arm := by
  have hsel : (s.withIrqEn b).select (s.withIrqEn b).pend = s.select s.pend := by
    rw [select_withIrqEn]
    rfl
  refine ⟨?_, ?_, ?_, ?_⟩
  · rw [arm_now, arm_now]
    rfl
  · rw [arm_seqNext, arm_seqNext]
    rfl
  · rw [arm_slots, arm_slots]
    rfl
  · cases h : s.select s.pend with
    | none =>
      obtain ⟨harmed, hcmp, hpending⟩ := arm_of_select_eq_none h
      obtain ⟨harmed', hcmp', hpending'⟩ := arm_of_select_eq_none (hsel.trans h)
      exact ⟨harmed'.trans harmed.symm, hcmp'.trans hcmp.symm, hpending'.trans hpending.symm⟩
    | some k =>
      obtain ⟨harmed, hcmp, hpending⟩ := arm_of_select_eq_some h
      obtain ⟨harmed', hcmp', hpending'⟩ := arm_of_select_eq_some (hsel.trans h)
      exact ⟨harmed'.trans harmed.symm, hcmp'.trans hcmp.symm, hpending'.trans hpending.symm⟩

/-- So a command that ends with ARM leaves the same, whatever it answers. -/
theorem sameUnderMask_arm_answered (s : State) (b : Bool) (r0 r1 r2 r3 r4 q0 q1 q2 q3 q4 : Word) :
    (s.arm.answered r0 r1 r2 r3 r4).SameUnderMask ((s.withIrqEn b).arm.answered q0 q1 q2 q3 q4) :=
  have ⟨hnow, hseq, hevents⟩ := sameUnderMask_arm s b
  ⟨hnow, hseq, hevents⟩

/-- A command does the same to the event set and its timer under either value of `IRQ_EN`; only the flags of
READ_STATUS answer it (R87). -/
theorem exec_withIrqEn {i : Instr} {s t : State} (b : Bool) (h : exec i s = .next t) :
    ∃ t', exec i (s.withIrqEn b) = .next t' ∧ t.SameUnderMask t' := by
  have harm := fun u => sameUnderMask_arm_answered u b
  cases exec_inv h with
  | capacityExceeded d cb p hf =>
    exact ⟨_, exec_schedule_of_full (s := s.withIrqEn b) hf d cb p, sameUnderMask_withIrqEn _ b⟩
  | scheduled d cb p f hf =>
    exact ⟨_, exec_schedule_of_free (s := s.withIrqEn b) hf d cb p, harm (addEvent s f d cb p) ..⟩
  | notFound k hk =>
    exact ⟨_, exec_cancel_of_dead (s := s.withIrqEn b) (holder_eq_none.1 hk), sameUnderMask_withIrqEn _ b⟩
  | cancelled k j hk =>
    exact ⟨_, exec_cancel_of_holder (s := s.withIrqEn b) hk, harm (s.freeSlot j) ..⟩
  | cancelledAll p => exact ⟨_, exec_cancelAll (s.withIrqEn b) p, harm (freeTagged s p) ..⟩
  | maintained => exact ⟨_, exec_maintain (s.withIrqEn b), harm s ..⟩
  | serviced => exact ⟨_, exec_service (s.withIrqEn b), harm (latchDue s) ..⟩
  | noneDue hr =>
    exact ⟨_, exec_runNext_of_ready_eq_nil (s := s.withIrqEn b) hr, sameUnderMask_withIrqEn _ b⟩
  | popped k hk =>
    rw [← select_withIrqEn s b] at hk
    exact ⟨_, exec_runNext_of_select hk, harm (s.freeSlot k) ..⟩
  | badSlot k hk =>
    exact ⟨_, exec_readSlot_of_le (s := s.withIrqEn b) hk, sameUnderMask_withIrqEn _ b⟩
  | slot k hk =>
    exact ⟨_, exec_readSlot_of_lt (s := s.withIrqEn b) hk, sameUnderMask_withIrqEn _ b⟩
  | time | status | counted | controlled => exact ⟨_, rfl, sameUnderMask_withIrqEn _ b⟩

/-- A step does the same under either value of `IRQ_EN`. -/
theorem step_withIrqEn {s t : State} (b : Bool) (h : step s = .next t) :
    ∃ t', step (s.withIrqEn b) = .next t' ∧ t.SameUnderMask t' := by
  simp only [step, fetch_withIrqEn]
  rcases step_cases h with ⟨hf, rfl⟩ | ⟨hf, rfl⟩ | ⟨who, r, e, hf, hd, rfl⟩ | ⟨who, r, i, hf, hd, hx⟩
  · rw [hf]
    exact ⟨_, rfl, tick_withIrqEn (fetch s).2 b ▸ sameUnderMask_withIrqEn _ b⟩
  · rw [hf]
    exact ⟨_, rfl, rfl, rfl, rfl, rfl, rfl, rfl⟩
  · simp only [hf, hd]
    exact ⟨_, rfl, sameUnderMask_withIrqEn _ b⟩
  · simp only [hf, hd]
    exact exec_withIrqEn b hx

theorem irq_of_irqEn_eq_false {s : State} (h : s.irqEn = false) : s.irq = false := by
  rw [State.irq, h, Bool.and_false]

/-- Settles O41: no step reads `IRQ_EN` but for an answer, and the IRQ output is gated by it. -/
theorem maskingLosesNothing : Obligations.MaskingLosesNothing := by
  intro s t b h
  obtain ⟨t', ht', hnow, hseq, hslots, harmed, hcmp, hpending⟩ := step_withIrqEn b h
  exact ⟨t', ht', hnow, hslots, hseq, harmed, hcmp, hpending, irq_of_irqEn_eq_false⟩

/-! ### The issuers (R95, R101) -/

/-- A dutiful RUN_NEXT is the normal context's (duty 1). -/
theorem inputIssuer_of_dutiful_runNext {x : Input} (hx : dutiful x = true)
    (hi : inputInstr x = some .runNext) : inputIssuer x = some .normal := by
  cases x with
  | tick | reset => cases hi
  | command who r =>
    cases who with
    | normal => rfl
    | interrupt => simp [dutiful, hi, Instr.eventSet] at hx

/-- A dutiful SERVICE is the interrupt context's (duty 3). -/
theorem inputIssuer_of_dutiful_service {x : Input} (hx : dutiful x = true)
    (hi : inputInstr x = some .service) : inputIssuer x = some .interrupt := by
  cases x with
  | tick | reset => cases hi
  | command who r =>
    cases who with
    | normal => simp [dutiful, hi] at hx
    | interrupt => rfl

/-- Settles O42: the response goes to the issuer, and `IRQ_PENDING` falls only by SERVICE and reset. -/
theorem dutifulIssuersDispatchInNormalContext : Obligations.DutifulIssuersDispatchInNormalContext := by
  intro s t hduty h
  obtain ⟨-, hserving, -⟩ := step_port h
  rw [hserving]
  exact ⟨inputIssuer_of_dutiful_runNext hduty, fun hs ht =>
    (step_irqPending_falls h hs ht).imp_right (inputIssuer_of_dutiful_service hduty)⟩

/-- Settles O39: no command reads the issuer that the fetch records. -/
theorem issuerIdentityHasNoEffect : Obligations.IssuerIdentityHasNoEffect := by
  intro s t who who' r rest h
  cases hd : decode r with
  | error e =>
    rw [step_of_illegal rfl hd] at h ⊢
    cases h
    rfl
  | ok i =>
    rw [stepRunsTheDecodedInstruction _ _ r rest i rfl hd] at h ⊢
    have hinputs : t.inputs = rest := (exec_port h).1
    have ht : { t with serving := some who' } = t.withPorts rest (some who') t.response := by
      rw [← hinputs]; rfl
    rw [ht]
    have hother := exec_withPorts rest (some who') none h
    exact hother

end Sys2Proof.Machine

/-!
PROOFS. The family 70_reset_and_hazards.md: the state after reset (R109), and what due means inside the
horizon (R112).
-/
namespace Sys2Proof.Machine

/-! ### Due inside the horizon (R112) -/

/-- Settles O45: the horizon bounds a live deadline from below, so it is not ahead of `NOW` exactly when it
is due. -/
theorem dueInsideTheHorizonMeansReached : Obligations.DueInsideTheHorizonMeansReached := by
  intro s i h1 h2 hh hi
  obtain ⟨hlow, -⟩ := hh i hi
  rw [← Bool.not_eq_false, isDue_eq_false_iff_sdiff_pos h1 h2 hlow, Int.not_lt]

/-! ### The state after reset (R109) -/

theorem live_resetWith (p : Params) : (State.resetWith p).live = [] :=
  indices_eq_nil fun i _ => by rw [slot_resetWith]; rfl

theorem inHorizon_of_live_eq_nil {s : State} (h : s.live = []) : s.InHorizon :=
  fun _ hi => absurd (h ▸ hi) List.not_mem_nil

theorem handlesUnique_of_live_eq_nil {s : State} (h : s.live = []) : s.HandlesUnique :=
  ⟨fun _ hi => absurd (h ▸ hi) List.not_mem_nil, fun _ hi => absurd (h ▸ hi) List.not_mem_nil⟩

/-- Settles O19: the reset state has no event, so the statements about events hold of none. -/
theorem resetStateSatisfiesTheInvariants : Obligations.ResetStateSatisfiesTheInvariants :=
  ⟨rfl, fun p hp => ⟨inv_resetWith hp, irqInv_of_pend_eq_nil (pend_resetWith p),
    inHorizon_of_live_eq_nil (live_resetWith p), handlesUnique_of_live_eq_nil (live_resetWith p), rfl,
    params_resetWith p⟩⟩

end Sys2Proof.Machine

/-!
PROOFS. The family other: the step where the environment has chosen nothing (log entry 2).
-/
namespace Sys2Proof.Machine

/-- The fetch where no step has been chosen: the tick source is the agent (log entry 2). -/
theorem fetch_of_inputs_nil {s : State} (h : s.inputs = []) :
    fetch s = (.tick, { s with inputs := [], serving := none, response := none }) := by
  simp [fetch, h]

/-- Where no step has been chosen, the fetch is that of one chosen tick. -/
theorem fetch_eq_fetch_tick_of_inputs_nil {s : State} (h : s.inputs = []) :
    fetch s = fetch { s with inputs := [.tick] } := by
  rw [fetch_of_inputs_nil h, fetch_cons (s := { s with inputs := [.tick] }) rfl]
  rfl

/-- Settles O11: both states fetch a tick from the same state, and a step reads only what it fetches. -/
theorem unchosenStepIsATick : Obligations.UnchosenStepIsATick := by
  intro s h
  simp only [step, fetch_eq_fetch_tick_of_inputs_nil h]

end Sys2Proof.Machine
